-- ==== Sys2Proof/Word.lean ====
section
/-! DEFINITION. The word types of NEANDER (00_scope.md R4: data and addresses are 8 bits wide, the operation code 4).
The unsigned reading u(v) of 00_scope.md section 5.1 is `BitVec.toNat`, the signed reading s(v) is `BitVec.toInt`, and
`a +8 b` is `+` on `Byte`. -/

namespace Sys2Proof

/-- An 8-bit value: a datum, an address or a memory cell (R4). Bit 7 is the most significant (00_scope.md section 5.1). -/
abbrev Byte := BitVec 8

/-- A 4-bit operation code, the column "Código" of Tabela 10.1 (R4). -/
abbrev Code := BitVec 4

end Sys2Proof
end

