-- ==== Sys2Proof/Syntax.lean ====
section
/-! DEFINITION. The instructions: one constructor of Instr for each row of spec/opcode_table.json, the eleven instructions of
Tabela 10.1 (00_scope.md R2, 30_encoding.md R43) and the five reserved codes (R46). -/

namespace Sys2Proof

/-- What the 4-bit code alone says: the decoder lines of DECOD. (46_control_unit.md R111), and a name for each reserved
code, for which no line is active. -/
inductive Opcode where
  | nop | sta | lda | add | or | and | not | reserved0111
  | jmp | jn | jz | reserved1011 | reserved1100 | reserved1101 | reserved1110 | hlt
  deriving DecidableEq, Repr

/-- An instruction with its operand. The only operand is `ender`, the address byte that the spec calls end ("endereço",
R42): an 8-bit absolute address, every value legal. The low half of the opcode byte is dropped by decoding (R45). -/
inductive Instr where
  /-- No operation (R79). -/
  | nop
  /-- Store AC at the address (R60). -/
  | sta (ender : Byte)
  /-- Load AC from the address (R61). -/
  | lda (ender : Byte)
  /-- Add the cell at the address to AC (R66). -/
  | add (ender : Byte)
  /-- Bitwise or of the cell into AC (R67). -/
  | or (ender : Byte)
  /-- Bitwise and of the cell into AC (R68). -/
  | and (ender : Byte)
  /-- Complement AC (R69). -/
  | not
  /-- The code 0111, which is no instruction (R46). -/
  | reserved0111
  /-- Jump (R72). -/
  | jmp (ender : Byte)
  /-- Jump if N (R73). -/
  | jn (ender : Byte)
  /-- Jump if Z (R74). -/
  | jz (ender : Byte)
  /-- The code 1011, which is no instruction (R46). -/
  | reserved1011
  /-- The code 1100, which is no instruction (R46). -/
  | reserved1100
  /-- The code 1101, which is no instruction (R46). -/
  | reserved1101
  /-- The code 1110, which is no instruction (R46). -/
  | reserved1110
  /-- Halt (R82). -/
  | hlt
  deriving DecidableEq, Repr

/-- The two instruction formats (R38, R39): F1 is one byte, F2 takes an address byte. -/
inductive Format where
  | f1 (i : Instr)
  | f2 (mk : Byte → Instr)

end Sys2Proof
end

