-- ==== Sys2Proof/WellFormed.lean ====
section
/-! DEFINITION. Which terms of Instr are instructions of this hardware. Every operand value is legal (30_encoding.md R42), so
the one check is R2 and R46: a reserved code is no instruction. One line for each reserved code, so that each is refused by
its own name. -/

namespace Sys2Proof

/-- Why a term of Instr is no instruction of NEANDER. -/
inductive IllFormed where
  /-- The code is not in Tabela 10.1 (R46). -/
  | reservedCode (code : Code)
  deriving DecidableEq, Repr

/-- The check of R2 and R46: the first thing wrong with a term, if anything is. -/
def Instr.illFormed : Instr → Option IllFormed
  | .nop => none
  | .sta _ => none
  | .lda _ => none
  | .add _ => none
  | .or _ => none
  | .and _ => none
  | .not => none
  | .reserved0111 => some (.reservedCode 0b0111)
  | .jmp _ => none
  | .jn _ => none
  | .jz _ => none
  | .reserved1011 => some (.reservedCode 0b1011)
  | .reserved1100 => some (.reservedCode 0b1100)
  | .reserved1101 => some (.reservedCode 0b1101)
  | .reserved1110 => some (.reservedCode 0b1110)
  | .hlt => none

/-- The term is one of the eleven instructions of Tabela 10.1 (R2). -/
abbrev Instr.WellFormed (i : Instr) : Prop := i.illFormed = none

end Sys2Proof
end

