-- ==== Sys2Proof/Decode.lean ====
section
/-! DEFINITION. Decoding (30_encoding.md sections 1 to 4) and, after it, encoding. -/

namespace Sys2Proof

/-! ### Fields of the opcode byte -/

/-- Bits 7:4 of the opcode byte, the 4-bit code (R38, R40; the position is the spec's decision D1). -/
def opcodeField (b : Byte) : Code := b.extractLsb' 4 4

/-- Bits 3:0 of the opcode byte, "don't care" (R41). -/
def ignoredField (b : Byte) : BitVec 4 := b.extractLsb' 0 4

/-- An opcode byte from its two halves, the code in the high one (R38, D1). -/
def opcodeByte (code : Code) (low : BitVec 4) : Byte := code ++ low

/-! ### Decoding -/

/-- The opcode map from code to name (R43, R46). -/
def opcodeOfCode (c : Code) : Opcode :=
  match c.toNat with
  | 0 => .nop
  | 1 => .sta
  | 2 => .lda
  | 3 => .add
  | 4 => .or
  | 5 => .and
  | 6 => .not
  | 7 => .reserved0111
  | 8 => .jmp
  | 9 => .jn
  | 10 => .jz
  | 11 => .reserved1011
  | 12 => .reserved1100
  | 13 => .reserved1101
  | 14 => .reserved1110
  | _ => .hlt

/-- The decode function of R45 on the opcode byte, which is what DECOD. computes from RI (R111): `b[3:0]` is dropped. -/
def decodeOpcode (b : Byte) : Opcode := opcodeOfCode (opcodeField b)

/-- The format of each code (R37 to R39, R44; only the opcode byte of a reserved code is fetched, R46). -/
def Opcode.format : Opcode → Format
  | .nop => .f1 .nop
  | .sta => .f2 .sta
  | .lda => .f2 .lda
  | .add => .f2 .add
  | .or => .f2 .or
  | .and => .f2 .and
  | .not => .f1 .not
  | .reserved0111 => .f1 .reserved0111
  | .jmp => .f2 .jmp
  | .jn => .f2 .jn
  | .jz => .f2 .jz
  | .reserved1011 => .f1 .reserved1011
  | .reserved1100 => .f1 .reserved1100
  | .reserved1101 => .f1 .reserved1101
  | .reserved1110 => .f1 .reserved1110
  | .hlt => .f1 .hlt

/-- The code is one of the five that Tabela 10.1 does not list (R46): no decoder line is active (R111). -/
def Opcode.isReserved : Opcode → Bool
  | .reserved0111 | .reserved1011 | .reserved1100 | .reserved1101 | .reserved1110 => true
  | .nop | .sta | .lda | .add | .or | .and | .not | .jmp | .jn | .jz | .hlt => false

/-- The mnemonics (R49); a reserved code has the name that spec/opcode_table.json gives its row. -/
def Opcode.mnemonic : Opcode → String
  | .nop => "NOP"
  | .sta => "STA"
  | .lda => "LDA"
  | .add => "ADD"
  | .or => "OR"
  | .and => "AND"
  | .not => "NOT"
  | .reserved0111 => "RESERVED_0111"
  | .jmp => "JMP"
  | .jn => "JN"
  | .jz => "JZ"
  | .reserved1011 => "RESERVED_1011"
  | .reserved1100 => "RESERVED_1100"
  | .reserved1101 => "RESERVED_1101"
  | .reserved1110 => "RESERVED_1110"
  | .hlt => "HLT"

/-- The instruction whose opcode byte is `b`, where `e` is the byte that follows it. The address byte of a format F2
instruction is not decoded: all 256 values are legal (R45). A format F1 instruction has no second byte (R37). -/
def decodeInstr (b e : Byte) : Instr :=
  match (decodeOpcode b).format with
  | .f1 i => i
  | .f2 mk => mk e

/-- Why a list of bytes does not begin with an instruction: it is too short. No byte value is refused (R45). -/
inductive DecodeError where
  /-- The list is empty. -/
  | noOpcodeByte
  /-- The opcode byte asks for an address byte and the list ends. -/
  | noAddressByte (opcode : Opcode)
  deriving DecidableEq, Repr

/-- What decoding a list of bytes answers. -/
inductive Decoded where
  /-- The instruction at the front, and the bytes after it. -/
  | instr (i : Instr) (rest : List Byte)
  /-- No whole instruction is there. -/
  | rejected (why : DecodeError)
  deriving DecidableEq, Repr

/-- The decoder on a list of bytes, lowest address first (R37, R44, R45). -/
def decode : List Byte → Decoded
  | [] => .rejected .noOpcodeByte
  | b :: rest =>
    match (decodeOpcode b).format, rest with
    | .f1 i, rest => .instr i rest
    | .f2 mk, e :: rest => .instr (mk e) rest
    | .f2 _, [] => .rejected (.noAddressByte (decodeOpcode b))

/-! ### Encoding -/

/-- The 4-bit code of each name (R43, Tabela 10.1; R46). -/
def Opcode.code : Opcode → Code
  | .nop => 0b0000
  | .sta => 0b0001
  | .lda => 0b0010
  | .add => 0b0011
  | .or => 0b0100
  | .and => 0b0101
  | .not => 0b0110
  | .reserved0111 => 0b0111
  | .jmp => 0b1000
  | .jn => 0b1001
  | .jz => 0b1010
  | .reserved1011 => 0b1011
  | .reserved1100 => 0b1100
  | .reserved1101 => 0b1101
  | .reserved1110 => 0b1110
  | .hlt => 0b1111

/-- The name in an instruction. -/
def Instr.opcode : Instr → Opcode
  | .nop => .nop
  | .sta _ => .sta
  | .lda _ => .lda
  | .add _ => .add
  | .or _ => .or
  | .and _ => .and
  | .not => .not
  | .reserved0111 => .reserved0111
  | .jmp _ => .jmp
  | .jn _ => .jn
  | .jz _ => .jz
  | .reserved1011 => .reserved1011
  | .reserved1100 => .reserved1100
  | .reserved1101 => .reserved1101
  | .reserved1110 => .reserved1110
  | .hlt => .hlt

/-- The bytes of an instruction after its opcode byte (R37). -/
def Instr.addressBytes : Instr → List Byte
  | .sta e | .lda e | .add e | .or e | .and e | .jmp e | .jn e | .jz e => [e]
  | .nop | .not | .hlt => []
  | .reserved0111 | .reserved1011 | .reserved1100 | .reserved1101 | .reserved1110 => []

/-- The encoding of an instruction with the ignored low half `low` (R38, R39, R41). -/
def encodeWith (low : BitVec 4) (i : Instr) : List Byte := opcodeByte i.opcode.code low :: i.addressBytes

/-- The canonical encoding, `ignored = 0000` (R41, R50). -/
def encode (i : Instr) : List Byte := encodeWith 0 i

/-! ### The numbering of spec/opcode_table.json -/

/-- The two bytes, lowest address first, of an instruction whose `nbits` bits are `w`, bit 0 the least significant of the
first byte; the bits above `nbits` are 0. -/
def tableWordBytes (nbits w : Nat) : List Byte :=
  [BitVec.ofNat 8 (w % 2 ^ nbits), BitVec.ofNat 8 (w % 2 ^ nbits / 256)]

/-- The instruction that the decoder reads from such a word. -/
def decodeTableWord (nbits w : Nat) : Option Instr :=
  match decode (tableWordBytes nbits w) with
  | .instr i _ => some i
  | .rejected _ => none

end Sys2Proof
end

