-- ==== Sys2Proof/Config.lean ====
section
/-! DEFINITION. What is fixed for this machine: the memory size of 00_scope.md R4 (its widths are the types
of Word.lean), and the values that State.reset takes for
what the spec leaves open (R5, R22). Nothing here is a free value: no result of NEANDER is undefined. -/

namespace Sys2Proof.Config

/-- Number of memory cells (R4, R16). -/
def memCells : Nat := 256

/-- What an address that a memory does not list reads as.
DESIGN CHOICE (unsafe, log 4): a memory lists its non-zero cells, so that every content of the 256 cells is one list.
The spec gives no cell a start value (R22, D6). -/
def unlistedByte : Byte := 0x00

/-- START_PC at reset: the default that the spec gives the parameter (R5, R22, D5).
DESIGN CHOICE (unsafe, log 3): State.reset takes that default. -/
def startPC : Byte := 0x00

/-- INIT_AC at reset. DESIGN CHOICE (unsafe, log 1): the spec gives none (R22). -/
def initAC : Byte := 0x00

/-- INIT_N at reset. DESIGN CHOICE (unsafe, log 1): the spec gives none (R22). -/
def initN : Bool := false

/-- INIT_Z at reset. DESIGN CHOICE (unsafe, log 1): the spec gives none (R22). -/
def initZ : Bool := false

/-- INIT_RI at reset. DESIGN CHOICE (unsafe, log 2): the spec gives none (R22). -/
def initRI : Byte := 0x00

/-- INIT_REM at reset. DESIGN CHOICE (unsafe, log 2): the spec gives none (R22). -/
def initREM : Byte := 0x00

/-- INIT_RDM at reset. DESIGN CHOICE (unsafe, log 2): the spec gives none (R22). -/
def initRDM : Byte := 0x00

end Sys2Proof.Config
end

