-- ==== Sys2Proof/Machine/State.lean ====
section
/-! DEFINITION. The state of NEANDER, whole: the instruction level (AC, PC, N, Z, MEM, run) and the organisation level (RI,
REM, RDM, t), which is everything 10_state.md section 1 lists and R17 calls complete; the reasons a step can stop; the launch
of R22 and R152; State.reset. -/

namespace Sys2Proof.Machine

/-- The memory, 256 cells of 8 bits (R16): (address, byte) pairs. An address that is not listed reads as
`Config.unlistedByte`. The canonical form is `Memory.wf` in Machine/Ops.lean. -/
abbrev Memory := List Host.Cell

/-- The time states of the control unit (R21, R114). -/
inductive TimeState where
  | t0 | t1 | t2 | t3 | t4 | t5 | t6 | t7
  deriving DecidableEq, Repr

/-- The one cause of a faulted run (R139): the opcode byte fetched has a reserved code. The byte is recorded. -/
inductive Cause where
  | reservedOpcode (byte : Byte)
  deriving DecidableEq, Repr

/-- The stop state `run` (R21, R54). -/
inductive Run where
  | running
  | halted
  | faulted (cause : Cause)
  deriving DecidableEq, Repr

/-- The machine (10_state.md section 1). -/
structure State where
  /-- The accumulator (R6). -/
  ac : Byte
  /-- The program counter (R8). -/
  pc : Byte
  /-- Condition code N, negative (R12). -/
  n : Bool
  /-- Condition code Z, zero (R13). -/
  z : Bool
  /-- The memory (R16). -/
  mem : Memory
  /-- The stop state (R54). -/
  run : Run
  /-- The instruction register (R18). -/
  ri : Byte
  /-- The memory address register (R19). -/
  rem : Byte
  /-- The memory data register (R20). -/
  rdm : Byte
  /-- The time state (R21). -/
  t : TimeState
  deriving DecidableEq, Repr

/-- Why a step answers no next state. Each of these is a stuck state, "no step exists" (93_implementation_defined.md). -/
inductive Fault where
  /-- Raised by a step, or a time step, of a machine that HLT has stopped (R81, D7). Safe: nothing is claimed of it. -/
  | alreadyHalted
  /-- Raised by a step, or a time step, of a machine that has met a reserved code (R142, D2). Safe. -/
  | alreadyFaulted (cause : Cause)
  /-- Raised by a time step for which the spec states nothing: signals that the equations never make active together, or
  what follows t7 without goto t0 (R115, U12, U13, log 10). No state that begins an instruction leads to it. Safe. -/
  | unstatedTimeStep (t : TimeState)
  deriving DecidableEq, Repr

/-- Why an instruction has no meaning. Safe: nothing is claimed past a refusal. -/
inductive Refusal where
  /-- Raised by an arm of exec for an instruction that is not modelled. No arm of this model raises it. -/
  | notModelled (mnemonic : String)
  deriving DecidableEq, Repr

/-- What a step or a meaning answers. -/
abbrev Result := Host.Outcome State Fault Refusal

/-- One access to memory (R28): the cell and the byte moved. -/
inductive Access where
  | read (addr value : Byte)
  | write (addr value : Byte)
  deriving DecidableEq, Repr

/-- The five operations of the UAL (R88). -/
inductive UalOp where
  | add | and | or | not | y
  deriving DecidableEq, Repr

/-- The arguments of a launch (R5, R22, R152): the host chooses `startPC` and `initMem` (R158), and nothing is known of the
others. -/
structure Launch where
  startPC : Byte
  initMem : Memory
  initAC : Byte
  initN : Bool
  initZ : Bool
  initRI : Byte
  initREM : Byte
  initRDM : Byte
  deriving DecidableEq, Repr

/-- The state in which a run starts (R22, R152): `run = Running`, `t = t0`, and the arguments. -/
def State.launch (l : Launch) : State where
  ac := l.initAC
  pc := l.startPC
  n := l.initN
  z := l.initZ
  mem := l.initMem
  run := .running
  ri := l.initRI
  rem := l.initREM
  rdm := l.initRDM
  t := .t0

/-- The launch that State.reset is: the spec's default of START_PC, and the values that Config names for what the spec
leaves open (logs 1 to 4). -/
def Launch.default : Launch where
  startPC := Config.startPC
  initMem := []
  initAC := Config.initAC
  initN := Config.initN
  initZ := Config.initZ
  initRI := Config.initRI
  initREM := Config.initREM
  initRDM := Config.initRDM

/-- The machine right after reset. The hardware has no reset (R152): this is the launch of `Launch.default`. -/
def State.reset : State := State.launch Launch.default

end Sys2Proof.Machine
end

