-- ==== Sys2Proof/Machine/Flags.lean ====
section
/-! DEFINITION. The two condition codes (10_state.md section 4): every flag computation the spec gives. -/

namespace Sys2Proof.Machine

/-- N of a result: its bit 7 (R12). -/
def flagN (r : Byte) : Bool := r.msb

/-- Z of a result: all eight bits are zero (R13). -/
def flagZ (r : Byte) : Bool := r == 0

/-- `SetNZ(r)` (00_scope.md section 5.3, R14): both flags from the 8-bit result. -/
def setNZ (r : Byte) (s : State) : State := { s with n := flagN r, z := flagZ r }

end Sys2Proof.Machine
end

