-- ==== Sys2Proof/Machine/Ops.lean ====
section
/-! DEFINITION. The shared operations: memory, the registers, the UAL, the fetch phase, the end of an instruction and the two
stops. Each updates the hidden registers as the organisation level does (R90, R91, R108). The spec describes no exception entry
and no return from one (R141, R143); its one abnormal event is `raiseReserved`. -/

namespace Sys2Proof.Machine

/-! ### Memory -/

/-- The pairs from address `lo` up are in canonical form. -/
def Memory.wfFrom (lo : Nat) : Memory → Bool
  | [] => true
  | (k, v) :: rest =>
    decide (lo ≤ k) && decide (k < Config.memCells) && (v != Config.unlistedByte) && Memory.wfFrom (k + 1) rest

/-- The canonical form: addresses strictly rising and in 0..255, and no pair that holds what an unlisted address reads as. -/
def Memory.wf (m : Memory) : Bool := Memory.wfFrom 0 m

/-- The byte at an address, the first pair of a list that names it. -/
def Memory.readNat : Memory → Nat → Byte
  | [], _ => Config.unlistedByte
  | (k, v) :: rest, a => if k = a then v else Memory.readNat rest a

/-- `MEM[a]` (R23): every 8-bit address names an existing cell. -/
def Memory.read (m : Memory) (a : Byte) : Byte := Memory.readNat m a.toNat

/-- The memory without an address's pairs. -/
def Memory.erase (m : Memory) (a : Nat) : Memory := m.filter (fun c => c.1 != a)

/-- A pair put in its place in the order of addresses. -/
def Memory.insert (a : Nat) (v : Byte) : Memory → Memory
  | [] => [(a, v)]
  | (k, w) :: rest => if a < k then (a, v) :: (k, w) :: rest else (k, w) :: Memory.insert a v rest

/-- `MEM[a] <- v` (R24). Writing what an unlisted address reads as removes the pair. -/
def Memory.write (m : Memory) (a : Byte) (v : Byte) : Memory :=
  if v = Config.unlistedByte then Memory.erase m a.toNat else Memory.insert a.toNat v (Memory.erase m a.toNat)

/-- Bytes placed at consecutive addresses from `a`, modulo 256: how a host fills memory before a run (R158). -/
def Memory.place (m : Memory) (a : Byte) : List Byte → Memory
  | [] => m
  | v :: rest => Memory.place (Memory.write m a v) (a + 1) rest

/-! ### Reads and writes of the machine -/

/-- `MemRead(addr, 1)` (R23): the address in REM, the byte in RDM (R90). -/
def readCell (a : Byte) (s : State) : State := { s with rem := a, rdm := s.mem.read a }

/-- `MemWrite(addr, 1, v)` (R24): the address in REM, the byte in RDM, and the cell (R91). -/
def writeCell (a v : Byte) (s : State) : State := { s with rem := a, rdm := v, mem := s.mem.write a v }

/-- `PC <- PC + 1`, modulo 256 (R10, R85). -/
def incrementPC (s : State) : State := { s with pc := s.pc + 1 }

/-- `PC <- v` (R71, R112). -/
def loadPC (v : Byte) (s : State) : State := { s with pc := v }

/-- `RI <- RDM` (R18, R112). -/
def loadRI (s : State) : State := { s with ri := s.rdm }

/-! ### The UAL -/

/-- The UAL's result (R88): X is AC and Y is RDM (C2). ADD is modulo 256, the carry discarded (R65, R66, D4). -/
def ual : UalOp → Byte → Byte → Byte
  | .add, x, y => x + y
  | .and, x, y => x &&& y
  | .or, x, y => x ||| y
  | .not, x, _ => ~~~x
  | .y, _, y => y

/-- `UAL(op), carga AC, carga NZ` (R112): AC and both flags from the one result, the old AC as X (R113). -/
def loadACThroughUal (op : UalOp) (s : State) : State :=
  setNZ (ual op s.ac s.rdm) { s with ac := ual op s.ac s.rdm }

/-! ### The phases of an instruction -/

/-- The fetch phase (R51, R94): `RI <- MEM[PC]; PC <- PC + 1`, REM and RDM left as the Read leaves them, and the time state
at t3, where the execution phase begins. It does not depend on the byte. -/
def fetchPhase (s : State) : State := { loadRI (incrementPC (readCell s.pc s)) with t := .t3 }

/-- `goto t0` (R115): the instruction ends and the next begins. -/
def endInstruction (s : State) : State := { s with t := .t0 }

/-- `halt` (R82): the time state stops advancing where it is (R116, log 11). -/
def halt (s : State) : State := { s with run := .halted }

/-- `raise ReservedOpcode(RI)` (R46, R142): the state is the one that the fetch phase left, with run changed. -/
def raiseReserved (s : State) : State := { s with run := .faulted (.reservedOpcode s.ri) }

end Sys2Proof.Machine
end

