-- ==== Sys2Proof/Machine/Control.lean ====
section
/-! DEFINITION. The organisation level (45_datapath_microops.md, 46_control_unit.md): the control signals, their Boolean
equations, what a time step with given signals does to the registers, and the run of a whole instruction through its time
states. Tabela 10.3 and 10.4 are transcribed beside the equations, which are derived from them (R119). -/

namespace Sys2Proof.Machine

/-- The control signals (R112, C6). `sel = 0` is `sel` not active (R136). The five `ual` signals together are the figure's
"seleção UAL". -/
inductive Signal where
  | cargaREM | sel | read | write | incrementaPC | cargaRI | cargaRDM
  | ual (op : UalOp) | cargaAC | cargaNZ | cargaPC | gotoT0 | halt
  deriving DecidableEq, Repr

/-- Every signal. -/
def Signal.all : List Signal :=
  [.cargaREM, .sel, .read, .write, .incrementaPC, .cargaRI, .cargaRDM,
   .ual .add, .ual .and, .ual .or, .ual .not, .ual .y, .cargaAC, .cargaNZ, .cargaPC, .gotoT0, .halt]

/-! ### The equations -/

/-- The sum STA+LDA+ADD+OR+AND of decoder lines, which the equations repeat (R120, R121, R123, R125, R135). -/
def hasDataOperand (op : Opcode) : Bool :=
  op == .sta || op == .lda || op == .add || op == .or || op == .and

/-- The sum LDA+ADD+OR+AND of decoder lines (R125, R132, R133). -/
def loadsFromMemory (op : Opcode) : Bool := op == .lda || op == .add || op == .or || op == .and

/-- The term JMP+JN.N+JZ.Z, a jump that is taken (R120, R125, R134, R135). -/
def takesJump (op : Opcode) (n z : Bool) : Bool := op == .jmp || (op == .jn && n) || (op == .jz && z)

/-- The term JN.N'+JZ.Z', a jump that is not taken (R121, R135). -/
def skipsJump (op : Opcode) (n z : Bool) : Bool := (op == .jn && !n) || (op == .jz && !z)

/-- The equation of each signal over the time state, the decoder lines and the flags (R120 to R135; Halt is R116). A decoder
line is 1 exactly when the opcode part of RI holds its code (R111), so a line is `op == ·`. -/
def equation (t : TimeState) (op : Opcode) (n z : Bool) : Signal → Bool
  | .cargaREM =>
    t == .t0 || (t == .t3 && (hasDataOperand op || takesJump op n z)) || (t == .t5 && hasDataOperand op)
  | .incrementaPC => t == .t1 || (t == .t4 && hasDataOperand op) || (t == .t3 && skipsJump op n z)
  | .cargaRI => t == .t2
  | .sel => t == .t5 && hasDataOperand op
  | .cargaRDM => t == .t6 && op == .sta
  | .read =>
    t == .t1 || (t == .t4 && (hasDataOperand op || takesJump op n z)) || (t == .t6 && loadsFromMemory op)
  | .write => t == .t7 && op == .sta
  | .ual .y => t == .t7 && op == .lda
  | .ual .add => t == .t7 && op == .add
  | .ual .or => t == .t7 && op == .or
  | .ual .and => t == .t7 && op == .and
  | .ual .not => t == .t3 && op == .not
  | .cargaAC => (t == .t7 && loadsFromMemory op) || (t == .t3 && op == .not)
  | .cargaNZ => (t == .t7 && loadsFromMemory op) || (t == .t3 && op == .not)
  | .cargaPC => t == .t5 && takesJump op n z
  | .gotoT0 =>
    (t == .t7 && hasDataOperand op) || (t == .t3 && (op == .nop || op == .not || skipsJump op n z)) ||
      (t == .t5 && takesJump op n z)
  | .halt => t == .t3 && op == .hlt

/-- The signals that are active. -/
def activeSignals (t : TimeState) (op : Opcode) (n z : Bool) : List Signal := Signal.all.filter (equation t op n z)

/-! ### The tables -/

/-- The thirteen columns of Tabela 10.3 and Tabela 10.4: JN and JZ have two, taken and not taken (R117, R118). -/
inductive Column where
  | sta | lda | add | or | and | not | jmp | jnTaken | jnUntaken | jzTaken | jzUntaken | nop | hlt
  deriving DecidableEq, Repr

/-- The decoder line of a column. -/
def Column.opcode : Column → Opcode
  | .sta => .sta
  | .lda => .lda
  | .add => .add
  | .or => .or
  | .and => .and
  | .not => .not
  | .jmp => .jmp
  | .jnTaken | .jnUntaken => .jn
  | .jzTaken | .jzUntaken => .jz
  | .nop => .nop
  | .hlt => .hlt

/-- The flags with which a column applies. -/
def Column.applies (n z : Bool) : Column → Bool
  | .jnTaken => n
  | .jnUntaken => !n
  | .jzTaken => z
  | .jzUntaken => !z
  | .sta | .lda | .add | .or | .and | .not | .jmp | .nop | .hlt => true

/-- The cells of Tabela 10.3 and Tabela 10.4 from t3 on, one list a time state, ending where the column ends. `sel=0` is
written by leaving `sel` out. -/
def Column.executionCells : Column → List (List Signal)
  | .sta => [[.cargaREM], [.read, .incrementaPC], [.sel, .cargaREM], [.cargaRDM], [.write, .gotoT0]]
  | .lda =>
    [[.cargaREM], [.read, .incrementaPC], [.sel, .cargaREM], [.read], [.ual .y, .cargaAC, .cargaNZ, .gotoT0]]
  | .add =>
    [[.cargaREM], [.read, .incrementaPC], [.sel, .cargaREM], [.read], [.ual .add, .cargaAC, .cargaNZ, .gotoT0]]
  | .or =>
    [[.cargaREM], [.read, .incrementaPC], [.sel, .cargaREM], [.read], [.ual .or, .cargaAC, .cargaNZ, .gotoT0]]
  | .and =>
    [[.cargaREM], [.read, .incrementaPC], [.sel, .cargaREM], [.read], [.ual .and, .cargaAC, .cargaNZ, .gotoT0]]
  | .not => [[.ual .not, .cargaAC, .cargaNZ, .gotoT0]]
  | .jmp => [[.cargaREM], [.read], [.cargaPC, .gotoT0]]
  | .jnTaken => [[.cargaREM], [.read], [.cargaPC, .gotoT0]]
  | .jnUntaken => [[.incrementaPC, .gotoT0]]
  | .jzTaken => [[.cargaREM], [.read], [.cargaPC, .gotoT0]]
  | .jzUntaken => [[.incrementaPC, .gotoT0]]
  | .nop => [[.gotoT0]]
  | .hlt => [[.halt]]

/-- The cells of a column from t0: the first three are the same in every column (R117, R118). -/
def Column.cells (c : Column) : List (List Signal) :=
  [.cargaREM] :: [.read, .incrementaPC] :: [.cargaRI] :: c.executionCells

/-! ### One time step -/

/-- The number of a time state. -/
def TimeState.index : TimeState → Nat
  | .t0 => 0
  | .t1 => 1
  | .t2 => 2
  | .t3 => 3
  | .t4 => 4
  | .t5 => 5
  | .t6 => 6
  | .t7 => 7

/-- The time state after this one (R115). What follows t7 is not stated (N16). -/
def TimeState.succ : TimeState → Option TimeState
  | .t0 => some .t1
  | .t1 => some .t2
  | .t2 => some .t3
  | .t3 => some .t4
  | .t4 => some .t5
  | .t5 => some .t6
  | .t6 => some .t7
  | .t7 => none

/-- t0, t1, t2 are the fetch phase (R114). -/
def TimeState.isFetch : TimeState → Bool
  | .t0 | .t1 | .t2 => true
  | .t3 | .t4 | .t5 | .t6 | .t7 => false

/-- The value that REM takes, through MPX (R89). -/
def nextREM (sig : Signal → Bool) (s : State) : Byte :=
  if sig .cargaREM then (if sig .sel then s.rdm else s.pc) else s.rem

/-- The value that RDM takes: from memory on Read (R90), from AC on carga RDM. Both together are not stated (C4). -/
def nextRDM (sig : Signal → Bool) (s : State) : Option Byte :=
  match sig .read, sig .cargaRDM with
  | true, true => none
  | true, false => some (s.mem.read s.rem)
  | false, true => some s.ac
  | false, false => some s.rdm

/-- The memory after a Write (R91). Read and Write together are not stated (U13). -/
def nextMem (sig : Signal → Bool) (s : State) : Option Memory :=
  match sig .write, sig .read with
  | true, true => none
  | true, false => some (s.mem.write s.rem s.rdm)
  | false, _ => some s.mem

/-- The value that PC takes: a counter with a load (R85). Both together are not stated (N24). -/
def nextPC (sig : Signal → Bool) (s : State) : Option Byte :=
  match sig .cargaPC, sig .incrementaPC with
  | true, true => none
  | true, false => some s.rdm
  | false, true => some (s.pc + 1)
  | false, false => some s.pc

/-- The value that RI takes (R18). -/
def nextRI (sig : Signal → Bool) (s : State) : Byte := if sig .cargaRI then s.rdm else s.ri

/-- The UAL operations selected. -/
def selectedOps (sig : Signal → Bool) : List UalOp := [.add, .and, .or, .not, .y].filter (fun op => sig (.ual op))

/-- AC, N and Z after the time step, from the one result of the UAL (R112). A load with no operation selected, or with two,
is not stated (U13). -/
def nextAcc (sig : Signal → Bool) (s : State) : Option (Byte × Bool × Bool) :=
  match sig .cargaAC || sig .cargaNZ, selectedOps sig with
  | false, _ => some (s.ac, s.n, s.z)
  | true, [op] =>
    let r := ual op s.ac s.rdm
    some (if sig .cargaAC then r else s.ac, if sig .cargaNZ then flagN r else s.n, if sig .cargaNZ then flagZ r else s.z)
  | true, _ => none

/-- The time state after the time step (R115, R116). -/
def nextTime (sig : Signal → Bool) (s : State) : Option TimeState :=
  match sig .gotoT0, sig .halt with
  | true, true => none
  | true, false => some .t0
  | false, true => some s.t
  | false, false => s.t.succ

/-- One synchronous register-transfer step (R113): every source is read in `s`, every destination changes at the end. -/
def transfer (sig : Signal → Bool) (s : State) : Result :=
  match nextRDM sig s, nextMem sig s, nextPC sig s, nextAcc sig s, nextTime sig s with
  | some rdm, some mem, some pc, some (ac, n, z), some t =>
    .next { ac := ac, pc := pc, n := n, z := z, mem := mem, run := if sig .halt then .halted else s.run,
            ri := nextRI sig s, rem := nextREM sig s, rdm := rdm, t := t }
  | _, _, _, _, _ => .fault (.unstatedTimeStep s.t)

/-- The signals that the control unit makes active in a state (R110). -/
def controlSignals (s : State) : Signal → Bool := equation s.t (decodeOpcode s.ri) s.n s.z

/-- One time step of a machine whose control unit is sequencing. A reserved code in RI faults at t3, after the fetch phase
(R137); in a state at t4 to t7, which no run reaches, it does the same (log 10). -/
def sequencedStep (s : State) : Result :=
  if !s.t.isFetch && (decodeOpcode s.ri).isReserved then .next (raiseReserved s) else transfer (controlSignals s) s

/-- One time step of the organisation level. After Halt, and after a fault, there is none (R81, R142). -/
def microStep (s : State) : Result :=
  match s.run with
  | .running => sequencedStep s
  | .halted => .fault .alreadyHalted
  | .faulted cause => .fault (.alreadyFaulted cause)

/-! ### A whole instruction in time steps -/

/-- The instruction has ended: goto t0 brought the control unit back to t0, or it has stopped (R115, R116, R137). -/
def instructionEnded (s : State) : Bool := s.run != .running || s.t == .t0

/-- Time steps until the instruction ends (R109), at most `k` of them. -/
def microRun : Nat → State → Result
  | 0, s => .fault (.unstatedTimeStep s.t)
  | k + 1, s =>
    match microStep s with
    | .next s' => if instructionEnded s' then .next s' else microRun k s'
    | .fault r => .fault r
    | .refused r => .refused r

/-- The number of time states (R4, R114): no instruction takes more. -/
def timeStateCount : Nat := 8

/-- The rest of the instruction in progress, the whole of it from t0. -/
def runInstruction (s : State) : Result := microRun timeStateCount s

/-- The states in which the time steps of the instruction begin, in order. -/
def microTrace : Nat → State → List State
  | 0, _ => []
  | k + 1, s =>
    match microStep s with
    | .next s' => s :: (if instructionEnded s' then [] else microTrace k s')
    | .fault _ => []
    | .refused _ => []

/-- How many time states the instruction takes (R155). -/
def timeStates (s : State) : Nat := (microTrace timeStateCount s).length

/-- The memory access of one time step, if it makes one (R90, R91, R156). -/
def timeStepAccess (s : State) : Option Access :=
  if controlSignals s .read then some (.read s.rem (s.mem.read s.rem))
  else if controlSignals s .write then some (.write s.rem s.rdm)
  else none

/-- The memory accesses of the instruction, in order (R28). -/
def accesses (s : State) : List Access := (microTrace timeStateCount s).filterMap timeStepAccess

end Sys2Proof.Machine
end

