-- ==== Sys2Proof/Machine/Operands.lean ====
section
/-! DEFINITION. The operand forms. There is one addressing mode, direct (41_store_load.md R58), and one use of the address
byte as a jump target (43_jumps.md R71). A meaning is applied to the state that the fetch phase leaves, with the address byte
that the decoder read at PC (log 7). -/

namespace Sys2Proof.Machine

/-- The effective address of STA, LDA, ADD, OR, AND: the address byte itself (R58). -/
def effectiveAddress (ender : Byte) : Byte := ender

/-- The operand fetch of STA, LDA, ADD, OR, AND (R59): `end <- MEM[PC]; PC <- PC + 1`. REM holds the address of the address
byte and RDM the byte (t3, t4 of R96). -/
def operandFetch (ender : Byte) (s : State) : State := incrementPC { s with rem := s.pc, rdm := ender }

/-- The operand fetch and then the data byte in RDM (LDA, ADD, OR, AND: t3 to t6 of R97 to R100). -/
def fetchDirect (ender : Byte) (s : State) : State := readCell (effectiveAddress ender) (operandFetch ender s)

/-- A taken jump (R71, R72; R102): the address byte is read and PC takes it, without a second increment. -/
def jumpTo (ender : Byte) (s : State) : State := loadPC ender { s with rem := s.pc, rdm := ender }

/-- An untaken jump (R75; R104, R106): PC steps over the address byte, which is not read. -/
def stepOver (s : State) : State := incrementPC s

end Sys2Proof.Machine
end

