-- ==== Sys2Proof/Machine/ArithLogic.lean ====
section
/-! DEFINITION. The execution phases of ADD, OR, AND and NOT (42_alu.md). -/

namespace Sys2Proof.Machine

/-- ADD (R66): `AC <- AC + MEM[end]` modulo 256; SetNZ. -/
def execAdd (ender : Byte) (s : State) : Result :=
  .next (endInstruction (loadACThroughUal .add (fetchDirect ender s)))

/-- OR (R67): `AC <- AC or MEM[end]`; SetNZ. -/
def execOr (ender : Byte) (s : State) : Result :=
  .next (endInstruction (loadACThroughUal .or (fetchDirect ender s)))

/-- AND (R68): `AC <- AC and MEM[end]`; SetNZ. -/
def execAnd (ender : Byte) (s : State) : Result :=
  .next (endInstruction (loadACThroughUal .and (fetchDirect ender s)))

/-- NOT (R69): `AC <- not AC`; SetNZ. No memory access. -/
def execNot (s : State) : Result := .next (endInstruction (loadACThroughUal .not s))

end Sys2Proof.Machine
end

