-- ==== Sys2Proof/Machine/Jumps.lean ====
section
/-! DEFINITION. The execution phases of JMP, JN and JZ (43_jumps.md). -/

namespace Sys2Proof.Machine

/-- JMP (R72): `PC <- end`. -/
def execJmp (ender : Byte) (s : State) : Result := .next (endInstruction (jumpTo ender s))

/-- JN (R73, R75): the condition is the flip-flop N. -/
def execJn (ender : Byte) (s : State) : Result :=
  .next (endInstruction (if s.n then jumpTo ender s else stepOver s))

/-- JZ (R74, R75): the condition is the flip-flop Z. -/
def execJz (ender : Byte) (s : State) : Result :=
  .next (endInstruction (if s.z then jumpTo ender s else stepOver s))

end Sys2Proof.Machine
end

