-- ==== Sys2Proof/Machine/NopHlt.lean ====
section
/-! DEFINITION. The execution phases of NOP and HLT (44_nop_hlt.md), and what a reserved code does (30_encoding.md R46). -/

namespace Sys2Proof.Machine

/-- NOP (R79): nothing after the fetch phase. -/
def execNop (s : State) : Result := .next (endInstruction s)

/-- HLT (R82): `run <- Halted`; goto t0 is not issued (R107). -/
def execHlt (s : State) : Result := .next (halt s)

/-- The code 0111 (R46, R142). -/
def execReserved0111 (s : State) : Result := .next (raiseReserved s)

/-- The code 1011 (R46, R142). -/
def execReserved1011 (s : State) : Result := .next (raiseReserved s)

/-- The code 1100 (R46, R142). -/
def execReserved1100 (s : State) : Result := .next (raiseReserved s)

/-- The code 1101 (R46, R142). -/
def execReserved1101 (s : State) : Result := .next (raiseReserved s)

/-- The code 1110 (R46, R142). -/
def execReserved1110 (s : State) : Result := .next (raiseReserved s)

end Sys2Proof.Machine
end

