-- ==== Sys2Proof/Machine/StoreLoad.lean ====
section
/-! DEFINITION. The execution phases of STA and LDA (41_store_load.md). -/

namespace Sys2Proof.Machine

/-- STA (R60): `MEM[end] <- AC`. -/
def execSta (ender : Byte) (s : State) : Result :=
  .next (endInstruction (writeCell (effectiveAddress ender) s.ac (operandFetch ender s)))

/-- LDA (R61): `AC <- MEM[end]; SetNZ`. -/
def execLda (ender : Byte) (s : State) : Result :=
  .next (endInstruction (loadACThroughUal .y (fetchDirect ender s)))

end Sys2Proof.Machine
end

