-- ==== Sys2Proof/Machine/Dispatch.lean ====
section
/-! DEFINITION. The execution phase of every instruction (40_instruction_cycle.md R52), applied to the state that the fetch
phase leaves. -/

namespace Sys2Proof.Machine

def exec (i : Instr) (s : State) : Host.Outcome State Fault Refusal :=
  match i with
  | .nop => Sys2Proof.Machine.execNop s
  | .sta ender => Sys2Proof.Machine.execSta ender s
  | .lda ender => Sys2Proof.Machine.execLda ender s
  | .add ender => Sys2Proof.Machine.execAdd ender s
  | .or ender => Sys2Proof.Machine.execOr ender s
  | .and ender => Sys2Proof.Machine.execAnd ender s
  | .not => Sys2Proof.Machine.execNot s
  | .reserved0111 => Sys2Proof.Machine.execReserved0111 s
  | .jmp ender => Sys2Proof.Machine.execJmp ender s
  | .jn ender => Sys2Proof.Machine.execJn ender s
  | .jz ender => Sys2Proof.Machine.execJz ender s
  | .reserved1011 => Sys2Proof.Machine.execReserved1011 s
  | .reserved1100 => Sys2Proof.Machine.execReserved1100 s
  | .reserved1101 => Sys2Proof.Machine.execReserved1101 s
  | .reserved1110 => Sys2Proof.Machine.execReserved1110 s
  | .hlt => Sys2Proof.Machine.execHlt s

end Sys2Proof.Machine
end

