-- ==== Sys2Proof/Machine/Fetch.lean ====
section
/-! DEFINITION. Where a step fetches its instruction (40_instruction_cycle.md R51, R57), and how a word is placed there. -/

namespace Sys2Proof.Machine

/-- The instruction at PC, decoded from MEM at every step (R57). The byte after the opcode byte counts only where the
instruction has an address byte; that reading it has no effect is R30 (log 7). -/
def instructionAt (s : State) : Instr := decodeInstr (s.mem.read s.pc) (s.mem.read (s.pc + 1))

/-- The machine is about to fetch an instruction: Running, at t0 (R21, R22, R54). -/
def readyToFetch (s : State) : Bool := s.run == .running && s.t == .t0

/-- The bytes placed at PC of a machine that is about to fetch. -/
def placeAtPC (bytes : List Byte) (s : State) : State :=
  { s with mem := s.mem.place s.pc bytes, run := .running, t := .t0 }

end Sys2Proof.Machine
end

