-- ==== Sys2Proof/Machine/Step.lean ====
section
/-! DEFINITION. One step of the machine (40_instruction_cycle.md R52). -/

namespace Sys2Proof.Machine

/-- One whole instruction: the fetch phase, then the execution phase of the instruction at PC (R52). It is defined only when
`run = Running`: there is no step from Halted or Faulted (R54). A state in the middle of an instruction, which only the time
steps of Machine/Control.lean reach, goes on to that instruction's end (log 9). -/
def step (s : State) : Host.Outcome State Fault Refusal :=
  match s.run with
  | .running => if s.t = .t0 then exec (instructionAt s) (fetchPhase s) else runInstruction s
  | .halted => .fault .alreadyHalted
  | .faulted cause => .fault (.alreadyFaulted cause)

/-- The state with the word's two bytes stored at PC and PC + 1, about to fetch (log 12). -/
def State.withFetchWord (s : State) (nbits w : Nat) : State := placeAtPC (tableWordBytes nbits w) s

end Sys2Proof.Machine
end

