-- ==== Sys2Proof/Machine/Architecture.lean ====
section
/-! DEFINITION. The instruction level alone (00_scope.md R3): the state (AC, PC, N, Z, MEM, run) with MEM as a function from
addresses, and the step pseudocode of 40_instruction_cycle.md R52 transcribed over it, with the accesses it writes down in
order. The machine itself is State and step; this is the yardstick that claims about them are stated against. -/

namespace Sys2Proof.Machine

/-- The instruction-level state of R52. -/
structure Arch where
  ac : Byte
  pc : Byte
  n : Bool
  z : Bool
  mem : Byte → Byte
  run : Run

/-- What a step of the pseudocode leaves, and the memory accesses it makes, in order. -/
structure ArchStep where
  after : Arch
  accesses : List Access

/-- Statements of the pseudocode that end "AC <- r; SetNZ(r)" after an operand fetch and a data read (R61, R66 to R68). -/
def archLoad (σ : Arch) (a ri e : Byte) (r : Byte) : ArchStep where
  after := { σ with pc := a + 1 + 1, ac := r, n := r.getLsbD 7, z := decide (r = 0) }
  accesses := [.read a ri, .read (a + 1) e, .read e (σ.mem e)]

/-- Statements of the pseudocode for a jump with condition `c` (R72 to R75). -/
def archJump (σ : Arch) (a ri e : Byte) (c : Bool) : ArchStep :=
  if c then { after := { σ with pc := e }, accesses := [.read a ri, .read (a + 1) e] }
  else { after := { σ with pc := a + 1 + 1 }, accesses := [.read a ri] }

/-- The pseudocode of R52 for a machine with `run = Running`. The case is on `ri[7:4]` alone. -/
def archStep (σ : Arch) : ArchStep :=
  let a := σ.pc
  let ri := σ.mem a
  let e := σ.mem (a + 1)
  match (ri >>> 4).toNat with
  | 0 => { after := { σ with pc := a + 1 }, accesses := [.read a ri] }
  | 1 => { after := { σ with pc := a + 1 + 1, mem := fun x => if x = e then σ.ac else σ.mem x }
           accesses := [.read a ri, .read (a + 1) e, .write e σ.ac] }
  | 2 => archLoad σ a ri e (σ.mem e)
  | 3 => archLoad σ a ri e (BitVec.ofNat 8 ((σ.ac.toNat + (σ.mem e).toNat) % 256))
  | 4 => archLoad σ a ri e (σ.ac ||| σ.mem e)
  | 5 => archLoad σ a ri e (σ.ac &&& σ.mem e)
  | 6 => { after := { σ with pc := a + 1, ac := ~~~σ.ac, n := (~~~σ.ac).getLsbD 7, z := decide (~~~σ.ac = 0) }
           accesses := [.read a ri] }
  | 8 => archJump σ a ri e true
  | 9 => archJump σ a ri e σ.n
  | 10 => archJump σ a ri e σ.z
  | 15 => { after := { σ with pc := a + 1, run := .halted }, accesses := [.read a ri] }
  | _ => { after := { σ with pc := a + 1, run := .faulted (.reservedOpcode ri) }, accesses := [.read a ri] }

/-- What the instruction level sees of a state. -/
def State.arch (s : State) : Arch where
  ac := s.ac
  pc := s.pc
  n := s.n
  z := s.z
  mem := s.mem.read
  run := s.run

end Sys2Proof.Machine
end

