-- ==== Sys2Proof/Safety.lean ====
section
/-! DEFINITION. What claims are stated in: the invariants of the machine, runs and how they end, and what the host reads. -/

namespace Sys2Proof.Machine

/-- The relation of R15 between the flags and AC. It need not hold at a launch (R22). -/
def FlagsAgree (s : State) : Prop := s.n = s.ac.getLsbD 7 ∧ s.z = decide (s.ac = 0)

/-- The memory is in canonical form. -/
def MemoryCanonical (s : State) : Prop := s.mem.wf = true

/-- The machine is between instructions: if it is still sequencing, the next time state is t0 (R21, R115). -/
def AtBoundary (s : State) : Prop := s.run = .running → s.t = .t0

/-- Two states differ at most in what no instruction can read (R18 to R20, R108): RI, REM and RDM. -/
def SameButHidden (s s' : State) : Prop := { s' with ri := s.ri, rem := s.rem, rdm := s.rdm } = s

/-! ### The instruction about to be fetched (R57) -/

/-- The opcode byte. -/
def opcodeByteAt (s : State) : Byte := s.mem.read s.pc

/-- The byte after it, modulo 256 (R31): the address byte, where the instruction has one. -/
def addressByteAt (s : State) : Byte := s.mem.read (s.pc + 1)

/-- What the opcode byte decodes to. -/
def opcodeAt (s : State) : Opcode := decodeOpcode (opcodeByteAt s)

/-- The machine is in a time state of an instruction whose opcode byte is in RI. -/
def InTimeState (s : State) (t : TimeState) (op : Opcode) : Prop :=
  s.run = .running ∧ s.t = t ∧ decodeOpcode s.ri = op

/-! ### Runs (R55) -/

/-- `k` whole instructions lead from `s` to `s'`. -/
def Reaches (k : Nat) (s s' : State) : Prop := Host.Core.run Sys2Proof.core k s = .next s'

/-- The run has ended: Halted or Faulted (R54, R55). -/
def Stopped (s : State) : Prop := s.run ≠ .running

/-- The memory accesses of `k` whole instructions, in order (R32). -/
def runAccesses : Nat → State → List Access
  | 0, _ => []
  | k + 1, s =>
    match step s with
    | .next s' => accesses s ++ runAccesses k s'
    | .fault _ => []
    | .refused _ => []

/-- Accesses that begin with the memory `m`: every read returns the latest earlier write to its cell, or the start value
(R23, R32). -/
def Coherent (m : Byte → Byte) : List Access → Prop
  | [] => True
  | .read a v :: rest => v = m a ∧ Coherent m rest
  | .write a v :: rest => Coherent (fun x => if x = a then v else m x) rest

/-- The contents of a cell after accesses. -/
def cellAfter (start : Byte) (a : Byte) : List Access → Byte
  | [] => start
  | .read _ _ :: rest => cellAfter start a rest
  | .write b v :: rest => cellAfter (if b = a then v else start) a rest

/-! ### The host (R158) -/

/-- The state that the host may read: AC, PC, N, Z and all of MEM. -/
structure Reading where
  ac : Byte
  pc : Byte
  n : Bool
  z : Bool
  mem : Memory
  deriving DecidableEq, Repr

/-- What the host gets of a run (R158). -/
inductive HostReading where
  /-- The run has not ended: the host gets nothing. -/
  | nothing
  /-- The result of a run that ended in Halted. -/
  | result (r : Reading)
  /-- The state of a failed run. -/
  | failed (cause : Cause) (r : Reading)
  deriving DecidableEq, Repr

/-- What the host reads. -/
def State.hostReads (s : State) : HostReading :=
  match s.run with
  | .running => .nothing
  | .halted => .result { ac := s.ac, pc := s.pc, n := s.n, z := s.z, mem := s.mem }
  | .faulted cause => .failed cause { ac := s.ac, pc := s.pc, n := s.n, z := s.z, mem := s.mem }

end Sys2Proof.Machine
end

