-- ==== Sys2Proof/Certificates/Slice0/Obligations.lean ====
section
/-! DEFINITION. The statements for the provers. Wrap-around of PC and of ADD, the place of the code in the opcode byte, the
reserved-code fault and the terminal stops are decisions of the spec (D1 to D4, D7), not of its source; each docstring says
which of them it rests on. -/

open Sys2Proof Sys2Proof.Machine

/-! ### Encoding -/

/-- Words written out from 30_encoding.md R43 and 95_test_vectors.md section 2, every family once, non-zero low halves among
them. Rests on D1. -/
def Obligations.DecodeOfWrittenOutWords : Prop :=
  decode [0b00001111] = .instr .nop [] ∧
  decode [0b00010111, 0x80] = .instr (.sta 0x80) [] ∧
  decode [0b00101010, 0xFF] = .instr (.lda 0xFF) [] ∧
  decode [0b00110000, 0x81, 0x10] = .instr (.add 0x81) [0x10] ∧
  decode [0b01001000, 0x00] = .instr (.or 0x00) [] ∧
  decode [0b01010001, 0x7F] = .instr (.and 0x7F) [] ∧
  decode [0b01101011, 0x22] = .instr .not [0x22] ∧
  decode [0b01111111] = .instr .reserved0111 [] ∧
  decode [0b10001100, 0x11] = .instr (.jmp 0x11) [] ∧
  decode [0b10011110, 0x06] = .instr (.jn 0x06) [] ∧
  decode [0b10100101, 0x14] = .instr (.jz 0x14) [] ∧
  decode [0b10110011] = .instr .reserved1011 [] ∧
  decode [0b11000101] = .instr .reserved1100 [] ∧
  decode [0b11011101] = .instr .reserved1101 [] ∧
  decode [0b11101111] = .instr .reserved1110 [] ∧
  decode [0b11111111] = .instr .hlt []

/-- Decode and encode agree, both ways: the canonical encoding of a well-formed instruction decodes to it, and a list of
bytes decodes to an instruction exactly if it begins with one of that instruction's sixteen encodings, the low half of the
opcode byte free and the operand whole. Rests on D1 (place of the code, low half ignored) and D2 (the reserved rows). -/
def Obligations.DecodeReadsExactlyTheEncodings : Prop :=
  (∀ i : Instr, i.WellFormed → decode (encode i) = .instr i []) ∧
  (∀ (bytes rest : List Byte) (i : Instr),
    decode bytes = .instr i rest ↔ ∃ low : BitVec 4, bytes = encodeWith low i ++ rest)

/-- Decoding is a function of bits 7:4 alone (30_encoding.md section 3, R45, which the spec marks derived): two opcode bytes
with the same high half decode alike with any address byte, and the address byte is taken whole. Rests on D1. -/
def Obligations.DecodingDependsOnTheCodeAlone : Prop :=
  (∀ b b' e : Byte, b.extractLsb' 4 4 = b'.extractLsb' 4 4 → decodeInstr b e = decodeInstr b' e) ∧
  (∀ b e e' : Byte, (decodeInstr b e).addressBytes = [] → decodeInstr b e' = decodeInstr b e) ∧
  (∀ b e a : Byte, (decodeInstr b e).addressBytes = [a] → a = e)

/-- JN and JZ are two bytes long whether or not the jump is taken; an untaken one steps over its address byte and does not
use it (30_encoding.md section 4, R48). That PC + 2 is modulo 256 is the spec's decision D3. -/
def Obligations.ConditionalJumpsAreTwoBytes : Prop :=
  (∀ e : Byte, (encode (.jn e)).length = 2 ∧ (encode (.jz e)).length = 2) ∧
  (∀ s : State, readyToFetch s = true →
    (opcodeAt s = .jn ∧ s.n = false ∨ opcodeAt s = .jz ∧ s.z = false) →
    ∃ s', step s = .next s' ∧ s'.pc = s.pc + 2) ∧
  (∀ (e e' : Byte) (s : State), (s.n = false → exec (.jn e) s = exec (.jn e') s) ∧
    (s.z = false → exec (.jz e) s = exec (.jz e') s))

/-! ### The step -/

/-- When the bytes at PC decode to an instruction, a step is its execution phase on the state that the fetch phase leaves,
which is written out. Holds for reserved codes too. -/
def Obligations.StepRunsTheDecodedInstruction : Prop :=
  ∀ (s : State) (i : Instr) (rest : List Byte), readyToFetch s = true →
    decode [s.mem.read s.pc, s.mem.read (s.pc + 1)] = .instr i rest →
    step s = exec i { s with pc := s.pc + 1, ri := s.mem.read s.pc, rem := s.pc, rdm := s.mem.read s.pc, t := .t3 }

/-- What State.withFetchWord places, the next step runs: the model's own interface (log 12). -/
def Obligations.WithFetchWordIsRunNext : Prop :=
  ∀ (s : State) (nbits w : Nat) (i : Instr), decodeTableWord nbits w = some i →
    step (s.withFetchWord nbits w) = exec i (fetchPhase (s.withFetchWord nbits w))

/-- The step pseudocode of R52, transcribed as `archStep` over AC, PC, N, Z, MEM as a function, and run: one step of the
machine gives what it gives, makes the accesses it writes down in the order it writes them, and is defined only when
`run = Running`. The pseudocode holds the decisions D1 to D4. -/
def Obligations.StepFollowsThePseudocode : Prop :=
  (∀ s : State, readyToFetch s = true →
    (∃ s', step s = .next s' ∧ s'.arch = (archStep s.arch).after) ∧ accesses s = (archStep s.arch).accesses) ∧
  (∀ s s' : State, step s = .next s' → s.run = .running)

/-- The two levels agree (45_datapath_microops.md section 4, R109, which the spec marks derived): the time steps of one
instruction, under the equations, leave exactly the state of one step, hidden registers included, whatever RI, REM and RDM
held, reserved codes included. Rests on D2 for the latter. -/
def Obligations.InstructionAndOrganisationLevelsAgree : Prop :=
  ∀ s : State, readyToFetch s = true → runInstruction s = step s ∧ accesses s = (archStep s.arch).accesses

/-- There is no step and no time step from Halted or from Faulted (44_nop_hlt.md R81 and 60_exceptions.md R142: decisions D7
and D2). -/
def Obligations.StoppedMachineHasNoStep : Prop :=
  ∀ s : State,
    (s.run = .halted → step s = .fault .alreadyHalted ∧ microStep s = .fault .alreadyHalted) ∧
    (∀ c, s.run = .faulted c → step s = .fault (.alreadyFaulted c) ∧ microStep s = .fault (.alreadyFaulted c))

/-- The hardware has no exception that could end a run: a machine about to fetch always steps, to a state between
instructions (60_exceptions.md R138, 40_instruction_cycle.md R56, both derived). -/
def Obligations.ReadyMachineAlwaysSteps : Prop :=
  ∀ s : State, readyToFetch s = true → ∃ s', step s = .next s' ∧ (readyToFetch s' = true ∨ Stopped s')

/-- A step completes, halts or faults, decided by the opcode byte alone (60_exceptions.md R140, 40_instruction_cycle.md R54:
derived, decisions D2 and D7). -/
def Obligations.OpcodeByteDecidesTheStop : Prop :=
  ∀ s s' : State, readyToFetch s = true → step s = .next s' →
    (s'.run = .halted ↔ opcodeAt s = .hlt) ∧
    (∀ b, s'.run = .faulted (.reservedOpcode b) ↔ (opcodeAt s).isReserved = true ∧ b = opcodeByteAt s) ∧
    (s'.run = .running ↔ opcodeAt s ≠ .hlt ∧ (opcodeAt s).isReserved = false)

/-! ### Each instruction: its completion, its whole effect, its accesses and its time states

The first clause of each is the execution phase, for every state and operand: a next state that is the old one but for the
fields named, which is its frame too. The last is the whole instruction from a machine about to fetch. -/

/-- STA (R60). The canonical bytes rest on D1, the wrap of PC on D3. -/
def Obligations.StaStoresTheAccumulator : Prop :=
  (∀ (e : Byte) (s : State), exec (.sta e) s =
    .next { s with pc := s.pc + 1, mem := s.mem.write e s.ac, rem := e, rdm := s.ac, t := .t0 }) ∧
  (∀ e : Byte, encode (.sta e) = [0x10, e]) ∧
  (∀ (s : State) (a e : Byte), readyToFetch s = true → opcodeAt s = .sta → a = s.pc → e = s.mem.read (a + 1) →
    step s = .next { s with pc := a + 2, mem := s.mem.write e s.ac, ri := s.mem.read a, rem := e, rdm := s.ac } ∧
    timeStates s = 8 ∧
    accesses s = [.read a (s.mem.read a), .read (a + 1) e, .write e s.ac])

/-- LDA (R61). The canonical bytes rest on D1, the wrap of PC on D3. -/
def Obligations.LdaLoadsTheAccumulator : Prop :=
  (∀ (e : Byte) (s : State), exec (.lda e) s =
    .next { s with pc := s.pc + 1, ac := s.mem.read e, n := (s.mem.read e).getLsbD 7, z := decide (s.mem.read e = 0),
                   rem := e, rdm := s.mem.read e, t := .t0 }) ∧
  (∀ e : Byte, encode (.lda e) = [0x20, e]) ∧
  (∀ (s : State) (a e v : Byte), readyToFetch s = true → opcodeAt s = .lda →
    a = s.pc → e = s.mem.read (a + 1) → v = s.mem.read e →
    step s = .next { s with pc := a + 2, ac := v, n := v.getLsbD 7, z := decide (v = 0),
                            ri := s.mem.read a, rem := e, rdm := v } ∧
    timeStates s = 8 ∧
    accesses s = [.read a (s.mem.read a), .read (a + 1) e, .read e v])

/-- ADD (42_alu.md section 3, R66). That the sum is modulo 256 and the carry is discarded is the spec's decision D4; the
canonical bytes rest on D1, the wrap of PC on D3. -/
def Obligations.AddAddsModulo256 : Prop :=
  (∀ (e : Byte) (s : State) (r : Byte), r = BitVec.ofNat 8 ((s.ac.toNat + (s.mem.read e).toNat) % 256) →
    exec (.add e) s =
      .next { s with pc := s.pc + 1, ac := r, n := r.getLsbD 7, z := decide (r = 0),
                     rem := e, rdm := s.mem.read e, t := .t0 }) ∧
  (∀ e : Byte, encode (.add e) = [0x30, e]) ∧
  (∀ (s : State) (a e v r : Byte), readyToFetch s = true → opcodeAt s = .add →
    a = s.pc → e = s.mem.read (a + 1) → v = s.mem.read e → r = BitVec.ofNat 8 ((s.ac.toNat + v.toNat) % 256) →
    step s = .next { s with pc := a + 2, ac := r, n := r.getLsbD 7, z := decide (r = 0),
                            ri := s.mem.read a, rem := e, rdm := v } ∧
    timeStates s = 8 ∧
    accesses s = [.read a (s.mem.read a), .read (a + 1) e, .read e v])

/-- OR (R67). The canonical bytes rest on D1, the wrap of PC on D3. -/
def Obligations.OrTakesBitwiseOr : Prop :=
  (∀ (e : Byte) (s : State) (r : Byte),
    (∀ k < 8, r.getLsbD k = (s.ac.getLsbD k || (s.mem.read e).getLsbD k)) →
    exec (.or e) s =
      .next { s with pc := s.pc + 1, ac := r, n := r.getLsbD 7, z := decide (r = 0),
                     rem := e, rdm := s.mem.read e, t := .t0 }) ∧
  (∀ (e : Byte) (s t : State), exec (.or e) s = .next t →
    t.n = (s.ac.getLsbD 7 || (s.mem.read e).getLsbD 7) ∧
    (t.z = true ↔ s.ac = 0x00 ∧ s.mem.read e = 0x00)) ∧
  (∀ e : Byte, encode (.or e) = [0x40, e]) ∧
  (∀ (s : State) (a e v r : Byte), readyToFetch s = true → opcodeAt s = .or →
    a = s.pc → e = s.mem.read (a + 1) → v = s.mem.read e →
    (∀ k < 8, r.getLsbD k = (s.ac.getLsbD k || v.getLsbD k)) →
    step s = .next { s with pc := a + 2, ac := r, n := r.getLsbD 7, z := decide (r = 0),
                            ri := s.mem.read a, rem := e, rdm := v } ∧
    timeStates s = 8 ∧
    accesses s = [.read a (s.mem.read a), .read (a + 1) e, .read e v])

/-- AND (R68). The canonical bytes rest on D1, the wrap of PC on D3. -/
def Obligations.AndTakesBitwiseAnd : Prop :=
  (∀ (e : Byte) (s : State) (r : Byte),
    (∀ k < 8, r.getLsbD k = (s.ac.getLsbD k && (s.mem.read e).getLsbD k)) →
    exec (.and e) s =
      .next { s with pc := s.pc + 1, ac := r, n := r.getLsbD 7, z := decide (r = 0),
                     rem := e, rdm := s.mem.read e, t := .t0 }) ∧
  (∀ (e : Byte) (s t : State), exec (.and e) s = .next t →
    t.n = (s.ac.getLsbD 7 && (s.mem.read e).getLsbD 7) ∧
    (t.z = true ↔ ∀ k < 8, ¬(s.ac.getLsbD k = true ∧ (s.mem.read e).getLsbD k = true))) ∧
  (∀ e : Byte, encode (.and e) = [0x50, e]) ∧
  (∀ (s : State) (a e v r : Byte), readyToFetch s = true → opcodeAt s = .and →
    a = s.pc → e = s.mem.read (a + 1) → v = s.mem.read e →
    (∀ k < 8, r.getLsbD k = (s.ac.getLsbD k && v.getLsbD k)) →
    step s = .next { s with pc := a + 2, ac := r, n := r.getLsbD 7, z := decide (r = 0),
                            ri := s.mem.read a, rem := e, rdm := v } ∧
    timeStates s = 8 ∧
    accesses s = [.read a (s.mem.read a), .read (a + 1) e, .read e v])

/-- NOT (R69): the complement, `r = 0xFF - u(AC)`; N is the complement of the old bit 7 and Z says that the old AC was 0xFF;
applied twice it restores AC; it is not the arithmetic negation. The canonical byte rests on D1, the wrap of PC on D3. -/
def Obligations.NotComplements : Prop :=
  (∀ (s : State) (r : Byte), r = BitVec.ofNat 8 (255 - s.ac.toNat) →
    exec .not s = .next { s with ac := r, n := !s.ac.getLsbD 7, z := decide (s.ac = 0xFF), t := .t0 } ∧
    (∀ k < 8, r.getLsbD k = !s.ac.getLsbD k) ∧ r.toInt = -s.ac.toInt - 1) ∧
  encode .not = [0x60] ∧
  (∀ s s1 s2 : State, exec .not s = .next s1 → exec .not s1 = .next s2 →
    s2.ac = s.ac ∧ s2.n = s.ac.getLsbD 7 ∧ s2.z = decide (s.ac = 0)) ∧
  (∀ (s : State) (a r : Byte), readyToFetch s = true → opcodeAt s = .not →
    a = s.pc → r = BitVec.ofNat 8 (255 - s.ac.toNat) →
    step s = .next { s with pc := a + 1, ac := r, n := r.getLsbD 7, z := decide (r = 0),
                            ri := s.mem.read a, rem := a, rdm := s.mem.read a } ∧
    timeStates s = 4 ∧
    accesses s = [.read a (s.mem.read a)])

/-- JMP (R72). The canonical bytes rest on D1, the address of the address byte at 0xFF on D3. -/
def Obligations.JmpJumps : Prop :=
  (∀ (e : Byte) (s : State), exec (.jmp e) s = .next { s with pc := e, rem := s.pc, rdm := e, t := .t0 }) ∧
  (∀ e : Byte, encode (.jmp e) = [0x80, e]) ∧
  (∀ (s : State) (a e : Byte), readyToFetch s = true → opcodeAt s = .jmp → a = s.pc → e = s.mem.read (a + 1) →
    step s = .next { s with pc := e, ri := s.mem.read a, rem := a + 1, rdm := e } ∧
    timeStates s = 6 ∧
    accesses s = [.read a (s.mem.read a), .read (a + 1) e])

/-- JN (R73), with the untaken case of R75: no read of the address byte, four time states. The canonical bytes rest on D1,
the wrap of PC on D3, the untaken case on D11. -/
def Obligations.JnJumpsIfNegative : Prop :=
  (∀ (e : Byte) (s : State), s.n = true →
    exec (.jn e) s = .next { s with pc := e, rem := s.pc, rdm := e, t := .t0 }) ∧
  (∀ (e : Byte) (s : State), s.n = false → exec (.jn e) s = .next { s with pc := s.pc + 1, t := .t0 }) ∧
  (∀ e : Byte, encode (.jn e) = [0x90, e]) ∧
  (∀ (s : State) (a e : Byte), readyToFetch s = true → opcodeAt s = .jn → s.n = true →
    a = s.pc → e = s.mem.read (a + 1) →
    step s = .next { s with pc := e, ri := s.mem.read a, rem := a + 1, rdm := e } ∧
    timeStates s = 6 ∧
    accesses s = [.read a (s.mem.read a), .read (a + 1) e]) ∧
  (∀ (s : State) (a : Byte), readyToFetch s = true → opcodeAt s = .jn → s.n = false → a = s.pc →
    step s = .next { s with pc := a + 2, ri := s.mem.read a, rem := a, rdm := s.mem.read a } ∧
    timeStates s = 4 ∧
    accesses s = [.read a (s.mem.read a)])

/-- JZ (R74), with the untaken case of R75: no read of the address byte, four time states. The canonical bytes rest on D1,
the wrap of PC on D3, the untaken case on D11. -/
def Obligations.JzJumpsIfZero : Prop :=
  (∀ (e : Byte) (s : State), s.z = true →
    exec (.jz e) s = .next { s with pc := e, rem := s.pc, rdm := e, t := .t0 }) ∧
  (∀ (e : Byte) (s : State), s.z = false → exec (.jz e) s = .next { s with pc := s.pc + 1, t := .t0 }) ∧
  (∀ e : Byte, encode (.jz e) = [0xA0, e]) ∧
  (∀ (s : State) (a e : Byte), readyToFetch s = true → opcodeAt s = .jz → s.z = true →
    a = s.pc → e = s.mem.read (a + 1) →
    step s = .next { s with pc := e, ri := s.mem.read a, rem := a + 1, rdm := e } ∧
    timeStates s = 6 ∧
    accesses s = [.read a (s.mem.read a), .read (a + 1) e]) ∧
  (∀ (s : State) (a : Byte), readyToFetch s = true → opcodeAt s = .jz → s.z = false → a = s.pc →
    step s = .next { s with pc := a + 2, ri := s.mem.read a, rem := a, rdm := s.mem.read a } ∧
    timeStates s = 4 ∧
    accesses s = [.read a (s.mem.read a)])

/-- NOP (R79): the canonical byte and the fifteen others; only PC moves (and the hidden registers of the fetch). The bytes
rest on D1, the wrap of PC on D3. -/
def Obligations.NopOnlyAdvancesPC : Prop :=
  (∀ s : State, exec .nop s = .next { s with t := .t0 }) ∧
  encode .nop = [0x00] ∧
  (∀ b : Byte, b.toNat ≤ 0x0F → decodeOpcode b = .nop) ∧
  (∀ (s : State) (a : Byte), readyToFetch s = true → opcodeAt s = .nop → a = s.pc →
    step s = .next { s with pc := a + 1, ri := s.mem.read a, rem := a, rdm := s.mem.read a } ∧
    timeStates s = 4 ∧
    accesses s = [.read a (s.mem.read a)])

/-- HLT (44_nop_hlt.md, R82): the canonical byte and the fifteen others; run is Halted and PC is one past the HLT byte. The
bytes rest on D1, the wrap of PC on D3. That t stays at t3 is no part of R82: it is the model's reading (log 11, DEDUCED) of
46_control_unit.md section 2, R116, which the spec marks derived. -/
def Obligations.HltHalts : Prop :=
  (∀ s : State, exec .hlt s = .next { s with run := .halted }) ∧
  encode .hlt = [0xF0] ∧
  (∀ b : Byte, 0xF0 ≤ b.toNat → decodeOpcode b = .hlt) ∧
  (∀ (s : State) (a : Byte), readyToFetch s = true → opcodeAt s = .hlt → a = s.pc →
    step s = .next { s with pc := a + 1, run := .halted, ri := s.mem.read a, rem := a, rdm := s.mem.read a, t := .t3 } ∧
    timeStates s = 4 ∧
    accesses s = [.read a (s.mem.read a)])

/-- A reserved code (30_encoding.md section 4, R46, and 60_exceptions.md R142: the spec's decision D2): after the fetch phase
run is Faulted with the byte, PC is one past it, and AC, N, Z and MEM are as before. That t stays at t3 is log 11. -/
def Obligations.ReservedCodesFault : Prop :=
  (∀ s : State,
    exec .reserved0111 s = .next { s with run := .faulted (.reservedOpcode s.ri) } ∧
    exec .reserved1011 s = .next { s with run := .faulted (.reservedOpcode s.ri) } ∧
    exec .reserved1100 s = .next { s with run := .faulted (.reservedOpcode s.ri) } ∧
    exec .reserved1101 s = .next { s with run := .faulted (.reservedOpcode s.ri) } ∧
    exec .reserved1110 s = .next { s with run := .faulted (.reservedOpcode s.ri) }) ∧
  (∀ b : Byte, (decodeOpcode b).isReserved = true ↔
    0x70 ≤ b.toNat ∧ b.toNat ≤ 0x7F ∨ 0xB0 ≤ b.toNat ∧ b.toNat ≤ 0xEF) ∧
  (∀ (s : State) (a b : Byte), readyToFetch s = true → (opcodeAt s).isReserved = true → a = s.pc → b = s.mem.read a →
    step s = .next { s with pc := a + 1, run := .faulted (.reservedOpcode b), ri := b, rem := a, rdm := b, t := .t3 } ∧
    timeStates s = 4 ∧
    accesses s = [.read a b])

/-! ### Frames and whole-machine rules -/

/-- The frame of the instructions that store nothing, in the execution phase: every cell reads as before and RI is kept; AC
and the flags are kept but by LDA, ADD, OR, AND and NOT; run but by HLT and the reserved codes; REM and RDM (hidden) but by
the instructions that read their address byte. PC may change. For the five reserved codes the frame is that of the spec's
decision D2 (30_encoding.md section 4, R46, and 60_exceptions.md section 1, R142; logs 5 and 13). -/
def Obligations.FrameOfNonStoringInstructions : Prop :=
  ∀ (i : Instr) (s s' : State), i.opcode ≠ .sta → exec i s = .next s' →
    (∀ a : Byte, s'.mem.read a = s.mem.read a) ∧ s'.ri = s.ri ∧
    (i.opcode ∉ [.lda, .add, .or, .and, .not] → s'.ac = s.ac ∧ s'.n = s.n ∧ s'.z = s.z) ∧
    (i.opcode ≠ .hlt → i.opcode.isReserved = false → s'.run = s.run) ∧
    (i.addressBytes = [] → s'.rem = s.rem ∧ s'.rdm = s.rdm ∧ s'.pc = s.pc)

/-- The frame of STA, in the execution phase: AC, N, Z, run and RI are kept, and every cell but the one at the effective
address, which is one byte wide and holds AC afterwards. -/
def Obligations.FrameOfSta : Prop :=
  ∀ (e a : Byte) (s s' : State), exec (.sta e) s = .next s' → effectiveAddress e = a →
    s'.ac = s.ac ∧ s'.n = s.n ∧ s'.z = s.z ∧ s'.run = s.run ∧ s'.ri = s.ri ∧
    s'.mem.read a = s.ac ∧ ∀ b : Byte, b ≠ a → s'.mem.read b = s.mem.read b

/-- A memory write changes the addressed cell alone, is done by STA alone, and its value is always AC (R24). -/
def Obligations.OnlyStaWritesMemory : Prop :=
  (∀ (a v : Byte) (s : State), (writeCell a v s).mem.read a = v ∧
    ∀ b : Byte, b ≠ a → (writeCell a v s).mem.read b = s.mem.read b) ∧
  (∀ s s' : State, readyToFetch s = true → step s = .next s' →
    (opcodeAt s = .sta → s'.mem.read (addressByteAt s) = s.ac) ∧
    (∀ a : Byte, s'.mem.read a ≠ s.mem.read a → opcodeAt s = .sta ∧ a = addressByteAt s ∧ s'.mem.read a = s.ac))

/-- Access to AC by instruction (10_state.md section 2, R7; that the sum of ADD is modulo 256 is D4). Written: by LDA, ADD,
OR, AND and NOT with their result, by nothing else. Read: by STA (the value stored), ADD, OR, AND and NOT alone, in that for
any other instruction a change of AC before it changes at most AC after it, and for LDA nothing. At the organisation level
`carga AC` names exactly the five. -/
def Obligations.AccessToACByInstruction : Prop :=
  (∀ (s s' : State) (v : Byte), readyToFetch s = true → step s = .next s' → v = s.mem.read (addressByteAt s) →
    (opcodeAt s = .lda → s'.ac = v) ∧ (opcodeAt s = .add → s'.ac = s.ac + v) ∧
    (opcodeAt s = .or → s'.ac = s.ac ||| v) ∧ (opcodeAt s = .and → s'.ac = s.ac &&& v) ∧
    (opcodeAt s = .not → s'.ac = ~~~s.ac) ∧ (opcodeAt s = .sta → s'.mem.read (addressByteAt s) = s.ac) ∧
    (opcodeAt s ∉ [.lda, .add, .or, .and, .not] → s'.ac = s.ac)) ∧
  (∀ (s s' : State) (x : Byte), readyToFetch s = true → step s = .next s' →
    opcodeAt s ∉ [.sta, .add, .or, .and, .not] →
    (opcodeAt s = .lda → step { s with ac := x } = .next s') ∧
    (opcodeAt s ≠ .lda → step { s with ac := x } = .next { s' with ac := x })) ∧
  (∀ (t : TimeState) (op : Opcode) (n z : Bool), equation t op n z .cargaAC = true ↔
    t = .t7 ∧ (op = .lda ∨ op = .add ∨ op = .or ∨ op = .and) ∨ t = .t3 ∧ op = .not)

/-- Which instructions write and read the flags (R14). Written together and only by LDA, ADD, OR, AND and NOT, both from the
value written to AC. N is read by JN alone and Z by JZ alone, in that for any other instruction a change of the flag before
it changes at most that flag after it. The signals: `carga NZ = carga AC`, and the flags enter the equations at t3 to t5 of
JN and JZ only. -/
def Obligations.WhoWritesAndReadsTheFlags : Prop :=
  (∀ s s' : State, readyToFetch s = true → step s = .next s' →
    (opcodeAt s ∈ [.lda, .add, .or, .and, .not] → s'.n = s'.ac.getLsbD 7 ∧ s'.z = decide (s'.ac = 0)) ∧
    (opcodeAt s ∉ [.lda, .add, .or, .and, .not] → s'.n = s.n ∧ s'.z = s.z)) ∧
  (∀ (s s' : State) (x : Bool), readyToFetch s = true → step s = .next s' → opcodeAt s ≠ .jn →
    ∃ y, step { s with n := x } = .next { s' with n := y }) ∧
  (∀ (s s' : State) (x : Bool), readyToFetch s = true → step s = .next s' → opcodeAt s ≠ .jz →
    ∃ y, step { s with z := x } = .next { s' with z := y }) ∧
  (∀ (t : TimeState) (op : Opcode) (n z : Bool),
    equation t op n z .cargaNZ = equation t op n z .cargaAC ∧
    (equation t op n z .cargaNZ = true ↔
      t = .t7 ∧ (op = .lda ∨ op = .add ∨ op = .or ∨ op = .and) ∨ t = .t3 ∧ op = .not) ∧
    (∀ n' z' sig, equation t op n z sig ≠ equation t op n' z' sig → op = .jn ∧ n ≠ n' ∨ op = .jz ∧ z ≠ z'))

/-- How each instruction advances PC (R9): a + 1; a + 2; or the address byte. The untaken jumps do not read it. No
instruction reads PC as data or stores it: AC, N, Z and MEM after a step depend on PC only through the two bytes there. The
sums are modulo 256 by D3. -/
def Obligations.HowPCAdvances : Prop :=
  (∀ s s' : State, readyToFetch s = true → step s = .next s' →
    (opcodeAt s ∈ [.nop, .not, .hlt] → s'.pc = s.pc + 1) ∧
    (opcodeAt s ∈ [.sta, .lda, .add, .or, .and] → s'.pc = s.pc + 2) ∧
    (opcodeAt s = .jmp ∨ opcodeAt s = .jn ∧ s.n = true ∨ opcodeAt s = .jz ∧ s.z = true → s'.pc = s.mem.read (s.pc + 1)) ∧
    (opcodeAt s = .jn ∧ s.n = false ∨ opcodeAt s = .jz ∧ s.z = false →
      s'.pc = s.pc + 2 ∧ accesses s = [.read s.pc (s.mem.read s.pc)])) ∧
  (∀ (s s1 s2 : State) (p : Byte), readyToFetch s = true →
    s.mem.read p = s.mem.read s.pc → s.mem.read (p + 1) = s.mem.read (s.pc + 1) →
    step s = .next s1 → step { s with pc := p } = .next s2 →
    s2.ac = s1.ac ∧ s2.n = s1.n ∧ s2.z = s1.z ∧ s2.mem = s1.mem)

/-- PC and the address of the address byte wrap at 0xFF (10_state.md section 3, 20_memory.md section 2: the spec's decision
D3): a two-byte instruction at 0xFF takes its address byte from 0x00 and, if it does not jump, is followed by 0x01; after a
one-byte instruction at 0xFF, and after a two-byte one at 0xFE, PC is 0x00. -/
def Obligations.PCWrapsAtTheTopOfMemory : Prop :=
  (∀ s : State, s.pc = 0xFF → addressByteAt s = s.mem.read 0x00) ∧
  (∀ s s' : State, readyToFetch s = true → step s = .next s' →
    (s.pc = 0xFF → opcodeAt s ∈ [.nop, .not, .hlt] → s'.pc = 0x00) ∧
    (s.pc = 0xFE → opcodeAt s ∈ [.sta, .lda, .add, .or, .and] → s'.pc = 0x00) ∧
    (s.pc = 0xFF → opcodeAt s ∈ [.sta, .lda, .add, .or, .and] → s'.pc = 0x01) ∧
    (s.pc = 0xFF → opcodeAt s = .jmp → s'.pc = s.mem.read 0x00))

/-- The two flags of a result (10_state.md section 4, R12 and R13, which the spec marks derived, D15): N is bit 7, which is
the sign; Z is that all bits are 0. -/
def Obligations.FlagsOfAResult : Prop :=
  ∀ (r : Byte) (s : State),
    (setNZ r s).n = r.getLsbD 7 ∧ ((setNZ r s).n = true ↔ r.toInt < 0) ∧ ((setNZ r s).n = true ↔ 128 ≤ r.toNat) ∧
    ((setNZ r s).z = true ↔ r = 0x00)

/-- The signed and the unsigned reading of ADD (42_alu.md section 3, R70, which the spec marks derived; D4). -/
def Obligations.SignedReadingOfAdd : Prop :=
  ∀ (s t : State) (e v : Byte), v = s.mem.read e → exec (.add e) s = .next t →
    (-128 ≤ s.ac.toInt + v.toInt → s.ac.toInt + v.toInt ≤ 127 → t.ac.toInt = s.ac.toInt + v.toInt) ∧
    (127 < s.ac.toInt + v.toInt →
      t.ac.toInt = s.ac.toInt + v.toInt - 256 ∧ 0 ≤ s.ac.toInt ∧ 0 ≤ v.toInt ∧ t.n = true) ∧
    (s.ac.toInt + v.toInt < -128 →
      t.ac.toInt = s.ac.toInt + v.toInt + 256 ∧ s.ac.toInt < 0 ∧ v.toInt < 0 ∧ t.n = false) ∧
    (s.ac.toNat + v.toNat ≤ 255 → t.ac.toNat = s.ac.toNat + v.toNat) ∧
    (255 < s.ac.toNat + v.toNat → t.ac.toNat = s.ac.toNat + v.toNat - 256)

/-! ### Memory -/

/-- The accesses of each instruction, in order (R28), and that no time step both reads and writes. The reserved codes rest
on D2. -/
def Obligations.AccessesOfEachInstruction : Prop :=
  (∀ (s : State) (a e : Byte), readyToFetch s = true → a = s.pc → e = s.mem.read (a + 1) →
    (opcodeAt s ∈ [.nop, .not, .hlt] → accesses s = [.read a (s.mem.read a)]) ∧
    (opcodeAt s = .sta → accesses s = [.read a (s.mem.read a), .read (a + 1) e, .write e s.ac]) ∧
    (opcodeAt s ∈ [.lda, .add, .or, .and] →
      accesses s = [.read a (s.mem.read a), .read (a + 1) e, .read e (s.mem.read e)]) ∧
    (opcodeAt s = .jmp ∨ opcodeAt s = .jn ∧ s.n = true ∨ opcodeAt s = .jz ∧ s.z = true →
      accesses s = [.read a (s.mem.read a), .read (a + 1) e]) ∧
    (opcodeAt s = .jn ∧ s.n = false ∨ opcodeAt s = .jz ∧ s.z = false → accesses s = [.read a (s.mem.read a)]) ∧
    ((opcodeAt s).isReserved = true → accesses s = [.read a (s.mem.read a)])) ∧
  (∀ s : State, ¬(controlSignals s .read = true ∧ controlSignals s .write = true))

/-- Sequential consistency of the one agent, over runs of any length (20_memory.md sections 1 and 3, R32, which the spec
marks derived): every read returns the latest earlier write to its cell or the start value, and so does the memory at the
end. -/
def Obligations.ReadsReturnTheLatestWrite : Prop :=
  ∀ (k : Nat) (s s' : State), readyToFetch s = true → Reaches k s s' →
    Coherent s.mem.read (runAccesses k s) ∧
    ∀ a : Byte, s'.mem.read a = cellAfter (s.mem.read a) a (runAccesses k s)

/-- A store is seen by the next fetch, with no intervening action, and does not affect the running STA (20_memory.md section
3, R34, derived). -/
def Obligations.StoreIsSeenByTheNextFetch : Prop :=
  ∀ (s : State) (a e : Byte), readyToFetch s = true → opcodeAt s = .sta → a = s.pc → e = addressByteAt s →
    ∃ s', step s = .next s' ∧ readyToFetch s' = true ∧ s'.pc = a + 2 ∧
      instructionAt s' = decodeInstr (if e = a + 2 then s.ac else s.mem.read (a + 2))
        (if e = a + 3 then s.ac else s.mem.read (a + 3))

/-- Every content of the 256 cells is one canonical memory and one only, so that INIT_MEM ranges over all contents (the
model's representation, log 4). -/
def Obligations.EveryContentIsOneMemory : Prop :=
  ∀ f : Byte → Byte, ∃ m : Memory, (m.wf = true ∧ ∀ a, m.read a = f a) ∧
    ∀ m' : Memory, m'.wf = true → (∀ a, m'.read a = f a) → m' = m

/-! ### Invariants -/

/-- Every step, from any state, keeps memory canonical (log 4). -/
def Obligations.StepKeepsMemoryCanonical : Prop :=
  ∀ s s' : State, MemoryCanonical s → step s = .next s' → MemoryCanonical s'

/-- The invariant of R15, which the spec marks derived: from the end of the first of LDA, ADD, OR, AND, NOT the flags agree
with AC, every step from any state keeps that, and so does every run; then N and Z are never both 1. Before it the three
values are unrelated: a launch may have both flags at 1. -/
def Obligations.FlagsAgreeForEverAfter : Prop :=
  (∀ s s' : State, readyToFetch s = true → opcodeAt s ∈ [.lda, .add, .or, .and, .not] → step s = .next s' →
    FlagsAgree s') ∧
  (∀ s s' : State, FlagsAgree s → step s = .next s' → FlagsAgree s') ∧
  (∀ (k : Nat) (s s' : State), FlagsAgree s → Reaches k s s' → FlagsAgree s' ∧ ¬(s'.n = true ∧ s'.z = true)) ∧
  (∃ l : Launch, (State.launch l).n = true ∧ (State.launch l).z = true)

/-- Every time step of the organisation level, from any state, keeps both invariants: the canonical form of memory, which is
the model's own representation (log 4, DESIGN CHOICE), and the agreement of the flags with AC (10_state.md section 4). -/
def Obligations.TimeStepKeepsInvariants : Prop :=
  ∀ s s' : State, microStep s = .next s' →
    (MemoryCanonical s → MemoryCanonical s') ∧ (FlagsAgree s → FlagsAgree s')

/-- Every step, from any state, ends between instructions. -/
def Obligations.StepEndsBetweenInstructions : Prop :=
  ∀ s s' : State, step s = .next s' → AtBoundary s'

/-- Any time state may be its start: a running machine in the middle of an instruction either ends that instruction or meets
a time step for which the spec states nothing (log 9, log 10), and it never halts but by HLT in RI, nor faults but by a
reserved code in RI. -/
def Obligations.RestOfAnInstruction : Prop :=
  ∀ s : State, s.run = .running → s.t.isFetch = false →
    (∃ t, step s = .fault (.unstatedTimeStep t)) ∨
    ∃ s', step s = .next s' ∧ AtBoundary s' ∧ s'.ri = s.ri ∧
      (s'.run = .halted → decodeOpcode s.ri = .hlt) ∧
      (∀ b, s'.run = .faulted (.reservedOpcode b) ↔ (decodeOpcode s.ri).isReserved = true ∧ b = s.ri)

/-! ### Launch, runs, host -/

/-- The state of a launch (10_state.md section 7, R22 and R152: the spec's decisions D5 and D6): the parameters as given,
Running, t0. -/
def Obligations.LaunchState : Prop :=
  ∀ l : Launch, (State.launch l).pc = l.startPC ∧ (State.launch l).mem = l.initMem ∧ (State.launch l).ac = l.initAC ∧
    (State.launch l).n = l.initN ∧ (State.launch l).z = l.initZ ∧ (State.launch l).ri = l.initRI ∧
    (State.launch l).rem = l.initREM ∧ (State.launch l).rdm = l.initRDM ∧
    (State.launch l).run = .running ∧ (State.launch l).t = .t0

/-- State.reset is a launch with the spec's default START_PC, meets the invariants that a launch must, and has the values
that the model chose for the rest: AC, N, Z (log 1), RI, REM, RDM (log 2), START_PC (log 3) and memory (log 4). -/
def Obligations.ResetIsALaunch : Prop :=
  (∃ l : Launch, State.reset = State.launch l ∧ l.startPC = 0x00) ∧ readyToFetch State.reset = true ∧
  MemoryCanonical State.reset ∧ AtBoundary State.reset ∧ (∀ a : Byte, State.reset.mem.read a = 0x00) ∧
  State.reset.ac = 0x00 ∧ State.reset.n = false ∧ State.reset.z = false ∧
  State.reset.ri = 0x00 ∧ State.reset.rem = 0x00 ∧ State.reset.rdm = 0x00

/-- A run from a machine about to fetch goes on until it is Halted or Faulted, and nothing else stops it
(40_instruction_cycle.md section 3, R56, derived). -/
def Obligations.RunGoesOnUntilItStops : Prop :=
  ∀ (k : Nat) (s : State), readyToFetch s = true →
    (∃ s', Reaches k s s') ∨ ∃ j < k, ∃ s', Reaches j s s' ∧ Stopped s'

/-- A run has at most one end, and nothing follows it (40_instruction_cycle.md section 3, R55, derived). -/
def Obligations.RunHasAtMostOneEnd : Prop :=
  ∀ (j k : Nat) (s s1 s2 : State), Reaches j s s1 → Stopped s1 → Reaches k s s2 → k ≤ j ∧ (Stopped s2 → k = j ∧ s2 = s1)

/-- What the host reads (70_reset_and_hazards.md section 5, R158: the spec's decision D10): nothing of a run that has not
ended; of a halted one the result, whole; of a faulted one the state of a failed run. -/
def Obligations.HostReadsAfterTheEnd : Prop :=
  ∀ s : State,
    (s.run = .running → s.hostReads = .nothing) ∧
    (s.run = .halted → s.hostReads = .result { ac := s.ac, pc := s.pc, n := s.n, z := s.z, mem := s.mem }) ∧
    (∀ c, s.run = .faulted c → s.hostReads = .failed c { ac := s.ac, pc := s.pc, n := s.n, z := s.z, mem := s.mem })

/-! ### The organisation level -/

/-- What each control signal does (46_control_unit.md section 1, R112): the rows of Tabela 10.2, then Read and Write. A time
step with exactly the row's signals makes exactly the row's transfer. Four things are no part of R112: that PC + 1 is modulo
256 is the spec's decision D3, that AC + RDM is modulo 256 its decision D4, that N is bit 7 and Z that all bits are 0 its
decision D15 (10_state.md section 4) (log 13 for the three), and that the time state advances is 46_control_unit.md section
2. -/
def Obligations.WhatEachControlSignalDoes : Prop :=
  ∀ (s : State) (t' : TimeState), s.t.succ = some t' →
    transfer (fun x => decide (x ∈ [.cargaREM])) s = .next { s with rem := s.pc, t := t' } ∧
    transfer (fun x => decide (x ∈ [.incrementaPC])) s = .next { s with pc := s.pc + 1, t := t' } ∧
    transfer (fun x => decide (x ∈ [.cargaRI])) s = .next { s with ri := s.rdm, t := t' } ∧
    transfer (fun x => decide (x ∈ [.sel, .cargaREM])) s = .next { s with rem := s.rdm, t := t' } ∧
    transfer (fun x => decide (x ∈ [.cargaRDM])) s = .next { s with rdm := s.ac, t := t' } ∧
    transfer (fun x => decide (x ∈ [.ual .y, .cargaAC, .cargaNZ])) s =
      .next { s with ac := s.rdm, n := s.rdm.getLsbD 7, z := decide (s.rdm = 0), t := t' } ∧
    transfer (fun x => decide (x ∈ [.ual .add, .cargaAC, .cargaNZ])) s =
      .next { s with ac := s.ac + s.rdm, n := (s.ac + s.rdm).getLsbD 7, z := decide (s.ac + s.rdm = 0), t := t' } ∧
    transfer (fun x => decide (x ∈ [.ual .or, .cargaAC, .cargaNZ])) s =
      .next { s with ac := s.ac ||| s.rdm, n := (s.ac ||| s.rdm).getLsbD 7, z := decide (s.ac ||| s.rdm = 0), t := t' } ∧
    transfer (fun x => decide (x ∈ [.ual .and, .cargaAC, .cargaNZ])) s =
      .next { s with ac := s.ac &&& s.rdm, n := (s.ac &&& s.rdm).getLsbD 7, z := decide (s.ac &&& s.rdm = 0), t := t' } ∧
    transfer (fun x => decide (x ∈ [.ual .not, .cargaAC, .cargaNZ])) s =
      .next { s with ac := ~~~s.ac, n := (~~~s.ac).getLsbD 7, z := decide (~~~s.ac = 0), t := t' } ∧
    transfer (fun x => decide (x ∈ [.cargaPC])) s = .next { s with pc := s.rdm, t := t' } ∧
    transfer (fun x => decide (x ∈ [.read])) s = .next { s with rdm := s.mem.read s.rem, t := t' } ∧
    transfer (fun x => decide (x ∈ [.write])) s = .next { s with mem := s.mem.write s.rem s.rdm, t := t' }

/-- The equations make active exactly the signals of each cell of Tabela 10.3 and Tabela 10.4 (R117, R118), the thirteen
columns, every time state that the column reaches, whatever flags the column leaves free. -/
def Obligations.EquationsGiveTheTables : Prop :=
  ∀ (c : Column) (n z : Bool) (t : TimeState) (cell : List Signal), c.applies n z = true →
    c.cells[t.index]? = some cell → ∀ sig : Signal, equation t c.opcode n z sig = true ↔ sig ∈ cell

/-- No signal of a time step writes a register that another of the same step reads as a source, `UAL(op), carga AC` apart,
and no register has two loads (46_control_unit.md section 1, R113: the spec's decision D14). -/
def Obligations.SignalsOfATimeStepDoNotInterfere : Prop :=
  ∀ (t : TimeState) (op : Opcode) (n z : Bool) (on : Signal → Bool), on = equation t op n z →
    ¬(on .cargaREM = true ∧ (on .read = true ∨ on .write = true)) ∧
    ¬(on .read = true ∧ (on .write = true ∨ on .cargaRDM = true ∨ on .cargaRI = true ∨ on .cargaPC = true ∨
      on .cargaAC = true ∨ on .sel = true)) ∧
    ¬(on .cargaRDM = true ∧ (on .write = true ∨ on .cargaRI = true ∨ on .cargaPC = true ∨ on .cargaAC = true ∨
      on .sel = true)) ∧
    ¬((on .incrementaPC = true ∨ on .cargaPC = true) ∧ on .cargaREM = true) ∧
    ¬(on .incrementaPC = true ∧ on .cargaPC = true) ∧
    ¬(on .cargaAC = true ∧ on .cargaRDM = true)

/-- The fetch phase, common to all instructions (R51, R94): three time steps, at t0, t1, t2, with these signals and
transfers, whatever RI holds and whatever byte is read; RI is loaded at t2, PC is incremented at t1 (modulo 256, D3), AC, N, Z
and MEM are unchanged. -/
def Obligations.FetchPhaseInTimeSteps : Prop :=
  (∀ (op : Opcode) (n z : Bool), activeSignals .t0 op n z = [.cargaREM] ∧
    activeSignals .t1 op n z = [.read, .incrementaPC] ∧ activeSignals .t2 op n z = [.cargaRI]) ∧
  (∀ s : State, s.run = .running → s.t = .t0 → microStep s = .next { s with rem := s.pc, t := .t1 }) ∧
  (∀ s : State, s.run = .running → s.t = .t1 →
    microStep s = .next { s with rdm := s.mem.read s.rem, pc := s.pc + 1, t := .t2 }) ∧
  (∀ s : State, s.run = .running → s.t = .t2 → microStep s = .next { s with ri := s.rdm, t := .t3 }) ∧
  (∀ s : State, fetchPhase s =
    { s with pc := s.pc + 1, ri := s.mem.read s.pc, rem := s.pc, rdm := s.mem.read s.pc, t := .t3 })

/-- The execution of STA, LDA, ADD, OR and AND in time steps, t3 to t7: the signals and the transfers
(45_datapath_microops.md section 3, R96 to R100). The increments are modulo 256 by the spec's decision D3, the sum of ADD by
its decision D4 (log 13); that no other signal is active is the tables'. -/
def Obligations.DataInstructionsInTimeSteps : Prop :=
  (∀ (op : Opcode) (n z : Bool), op ∈ [.sta, .lda, .add, .or, .and] →
    activeSignals .t3 op n z = [.cargaREM] ∧ activeSignals .t4 op n z = [.read, .incrementaPC] ∧
    activeSignals .t5 op n z = [.cargaREM, .sel] ∧
    activeSignals .t6 op n z = (if op = .sta then [.cargaRDM] else [.read])) ∧
  (∀ n z : Bool, activeSignals .t7 .sta n z = [.write, .gotoT0] ∧
    activeSignals .t7 .lda n z = [.ual .y, .cargaAC, .cargaNZ, .gotoT0] ∧
    activeSignals .t7 .add n z = [.ual .add, .cargaAC, .cargaNZ, .gotoT0] ∧
    activeSignals .t7 .or n z = [.ual .or, .cargaAC, .cargaNZ, .gotoT0] ∧
    activeSignals .t7 .and n z = [.ual .and, .cargaAC, .cargaNZ, .gotoT0]) ∧
  (∀ (s : State) (op : Opcode), op ∈ [.sta, .lda, .add, .or, .and] →
    (InTimeState s .t3 op → microStep s = .next { s with rem := s.pc, t := .t4 }) ∧
    (InTimeState s .t4 op → microStep s = .next { s with rdm := s.mem.read s.rem, pc := s.pc + 1, t := .t5 }) ∧
    (InTimeState s .t5 op → microStep s = .next { s with rem := s.rdm, t := .t6 }) ∧
    (InTimeState s .t6 op →
      microStep s = .next { s with rdm := if op = .sta then s.ac else s.mem.read s.rem, t := .t7 })) ∧
  (∀ s : State, InTimeState s .t7 .sta → microStep s = .next { s with mem := s.mem.write s.rem s.rdm, t := .t0 }) ∧
  (∀ (s : State) (r : Byte),
    (InTimeState s .t7 .lda ∧ r = s.rdm ∨ InTimeState s .t7 .add ∧ r = BitVec.ofNat 8 ((s.ac.toNat + s.rdm.toNat) % 256) ∨
      InTimeState s .t7 .or ∧ r = s.ac ||| s.rdm ∨ InTimeState s .t7 .and ∧ r = s.ac &&& s.rdm) →
    microStep s = .next { s with ac := r, n := r.getLsbD 7, z := decide (r = 0), t := .t0 }) ∧
  (∀ s : State, readyToFetch s = true → opcodeAt s ∈ [.sta, .lda, .add, .or, .and] → timeStates s = 8)

/-- The execution of a taken jump in time steps, t3 to t5, the signals and the transfers (R102, R103, R105): PC is not
incremented a second time, and the flag tested is not changed. -/
def Obligations.TakenJumpsInTimeSteps : Prop :=
  (∀ (op : Opcode) (n z : Bool), (op = .jmp ∨ op = .jn ∧ n = true ∨ op = .jz ∧ z = true) →
    activeSignals .t3 op n z = [.cargaREM] ∧ activeSignals .t4 op n z = [.read] ∧
    activeSignals .t5 op n z = [.cargaPC, .gotoT0]) ∧
  (∀ (s : State) (op : Opcode), (op = .jmp ∨ op = .jn ∧ s.n = true ∨ op = .jz ∧ s.z = true) →
    (InTimeState s .t3 op → microStep s = .next { s with rem := s.pc, t := .t4 }) ∧
    (InTimeState s .t4 op → microStep s = .next { s with rdm := s.mem.read s.rem, t := .t5 }) ∧
    (InTimeState s .t5 op → microStep s = .next { s with pc := s.rdm, t := .t0 })) ∧
  (∀ s : State, readyToFetch s = true →
    (opcodeAt s = .jmp ∨ opcodeAt s = .jn ∧ s.n = true ∨ opcodeAt s = .jz ∧ s.z = true) → timeStates s = 6)

/-- The instructions whose execution is the one time step t3: NOP, NOT, the untaken JN and JZ, and HLT
(45_datapath_microops.md section 3, R95, R101, R104, R106, R107): the signals, the transfer, four time steps in all, no
memory access after the fetch. HLT does not issue goto t0. The increment is modulo 256 by D3; that an untaken jump reads
nothing is D11; that N is bit 7 and Z that all bits are 0 is D15. That t stays at t3 after Halt is no part of R107: it is
the model's reading (log 11, DEDUCED) of 46_control_unit.md section 2, R116, which the spec marks derived. -/
def Obligations.OneStepExecutions : Prop :=
  (∀ n z : Bool, activeSignals .t3 .nop n z = [.gotoT0] ∧
    activeSignals .t3 .not n z = [.ual .not, .cargaAC, .cargaNZ, .gotoT0] ∧
    (n = false → activeSignals .t3 .jn n z = [.incrementaPC, .gotoT0]) ∧
    (z = false → activeSignals .t3 .jz n z = [.incrementaPC, .gotoT0]) ∧
    activeSignals .t3 .hlt n z = [.halt]) ∧
  (∀ s : State,
    (InTimeState s .t3 .nop → microStep s = .next { s with t := .t0 }) ∧
    (InTimeState s .t3 .not → microStep s =
      .next { s with ac := ~~~s.ac, n := (~~~s.ac).getLsbD 7, z := decide (~~~s.ac = 0), t := .t0 }) ∧
    (InTimeState s .t3 .jn → s.n = false → microStep s = .next { s with pc := s.pc + 1, t := .t0 }) ∧
    (InTimeState s .t3 .jz → s.z = false → microStep s = .next { s with pc := s.pc + 1, t := .t0 }) ∧
    (InTimeState s .t3 .hlt → microStep s = .next { s with run := .halted })) ∧
  (∀ s : State, readyToFetch s = true →
    (opcodeAt s ∈ [.nop, .not, .hlt] ∨ opcodeAt s = .jn ∧ s.n = false ∨ opcodeAt s = .jz ∧ s.z = false) →
    timeStates s = 4 ∧ accesses s = [.read s.pc (s.mem.read s.pc)])

/-- A reserved code under the equations (46_control_unit.md section 4, R137: the spec's decision D2): from t3 on no signal
is active, neither goto t0 nor Halt is issued, and the organisation level faults at t3. That t stays at t3 after the fault
is log 11 (DEDUCED). -/
def Obligations.ReservedCodeUnderTheEquations : Prop :=
  (∀ (t : TimeState) (op : Opcode) (n z : Bool) (sig : Signal), op.isReserved = true → t.isFetch = false →
    equation t op n z sig = false) ∧
  (∀ (s : State) (op : Opcode), op.isReserved = true → InTimeState s .t3 op →
    microStep s = .next { s with run := .faulted (.reservedOpcode s.ri) })

/-- How many time states, memory reads and memory writes each instruction takes (R155 and the table under it). -/
def Obligations.TimeStatesOfEachInstruction : Prop :=
  ∀ (s : State) (reads writes : Nat), readyToFetch s = true →
    reads = ((accesses s).filter fun x => match x with | .read _ _ => true | .write _ _ => false).length →
    writes = ((accesses s).filter fun x => match x with | .read _ _ => false | .write _ _ => true).length →
    (opcodeAt s = .sta → timeStates s = 8 ∧ reads = 2 ∧ writes = 1) ∧
    (opcodeAt s ∈ [.lda, .add, .or, .and] → timeStates s = 8 ∧ reads = 3 ∧ writes = 0) ∧
    (opcodeAt s ∈ [.nop, .not, .hlt] → timeStates s = 4 ∧ reads = 1 ∧ writes = 0) ∧
    (opcodeAt s = .jmp ∨ opcodeAt s = .jn ∧ s.n = true ∨ opcodeAt s = .jz ∧ s.z = true →
      timeStates s = 6 ∧ reads = 2 ∧ writes = 0) ∧
    (opcodeAt s = .jn ∧ s.n = false ∨ opcodeAt s = .jz ∧ s.z = false → timeStates s = 4 ∧ reads = 1 ∧ writes = 0)

/-- In which time states memory is read and written (R156): at most one operation in a time state. -/
def Obligations.WhenMemoryIsAccessed : Prop :=
  ∀ (t : TimeState) (op : Opcode) (n z : Bool),
    (equation t op n z .read = true ↔
      t = .t1 ∨
      t = .t4 ∧ (op ∈ [.sta, .lda, .add, .or, .and, .jmp] ∨ op = .jn ∧ n = true ∨ op = .jz ∧ z = true) ∨
      t = .t6 ∧ op ∈ [.lda, .add, .or, .and]) ∧
    (equation t op n z .write = true ↔ t = .t7 ∧ op = .sta) ∧
    ¬(equation t op n z .read = true ∧ equation t op n z .write = true)

/-- What RI, REM and RDM hold at the end of each instruction (45_datapath_microops.md section 4, R108, derived). -/
def Obligations.HiddenRegistersAfterEachInstruction : Prop :=
  ∀ (s s' : State) (a b e : Byte), readyToFetch s = true → step s = .next s' →
    a = s.pc → b = s.mem.read a → e = s.mem.read (a + 1) →
    s'.ri = b ∧
    (opcodeAt s ∈ [.nop, .not, .hlt] ∨ opcodeAt s = .jn ∧ s.n = false ∨ opcodeAt s = .jz ∧ s.z = false →
      s'.rem = a ∧ s'.rdm = b) ∧
    (opcodeAt s = .sta → s'.rem = e ∧ s'.rdm = s.ac) ∧
    (opcodeAt s ∈ [.lda, .add, .or, .and] → s'.rem = e ∧ s'.rdm = s.mem.read e) ∧
    (opcodeAt s = .jmp ∨ opcodeAt s = .jn ∧ s.n = true ∨ opcodeAt s = .jz ∧ s.z = true →
      s'.rem = a + 1 ∧ s'.rdm = e ∧ s'.pc = e)

/-- No instruction can read RI, REM or RDM as an earlier instruction left them (10_state.md section 6): two machines about to
fetch that differ only in those take the same step, to the same state. -/
def Obligations.HiddenRegistersCannotBeObserved : Prop :=
  ∀ s s' : State, readyToFetch s = true → SameButHidden s s' → step s' = step s
end

