-- ==== Sys2Proof/Laws/State.lean ====
section
/-! SUPPORT. One lemma per field per update, all by rfl, so that no proof unfolds a record update. -/

namespace Sys2Proof.Machine

/-! ### setNZ -/

@[simp] theorem setNZ_ac (r : Byte) (s : State) : (setNZ r s).ac = s.ac := rfl
@[simp] theorem setNZ_pc (r : Byte) (s : State) : (setNZ r s).pc = s.pc := rfl
@[simp] theorem setNZ_n (r : Byte) (s : State) : (setNZ r s).n = flagN r := rfl
@[simp] theorem setNZ_z (r : Byte) (s : State) : (setNZ r s).z = flagZ r := rfl
@[simp] theorem setNZ_mem (r : Byte) (s : State) : (setNZ r s).mem = s.mem := rfl
@[simp] theorem setNZ_run (r : Byte) (s : State) : (setNZ r s).run = s.run := rfl
@[simp] theorem setNZ_ri (r : Byte) (s : State) : (setNZ r s).ri = s.ri := rfl
@[simp] theorem setNZ_rem (r : Byte) (s : State) : (setNZ r s).rem = s.rem := rfl
@[simp] theorem setNZ_rdm (r : Byte) (s : State) : (setNZ r s).rdm = s.rdm := rfl
@[simp] theorem setNZ_t (r : Byte) (s : State) : (setNZ r s).t = s.t := rfl

/-! ### readCell -/

@[simp] theorem readCell_ac (a : Byte) (s : State) : (readCell a s).ac = s.ac := rfl
@[simp] theorem readCell_pc (a : Byte) (s : State) : (readCell a s).pc = s.pc := rfl
@[simp] theorem readCell_n (a : Byte) (s : State) : (readCell a s).n = s.n := rfl
@[simp] theorem readCell_z (a : Byte) (s : State) : (readCell a s).z = s.z := rfl
@[simp] theorem readCell_mem (a : Byte) (s : State) : (readCell a s).mem = s.mem := rfl
@[simp] theorem readCell_run (a : Byte) (s : State) : (readCell a s).run = s.run := rfl
@[simp] theorem readCell_ri (a : Byte) (s : State) : (readCell a s).ri = s.ri := rfl
@[simp] theorem readCell_rem (a : Byte) (s : State) : (readCell a s).rem = a := rfl
@[simp] theorem readCell_rdm (a : Byte) (s : State) : (readCell a s).rdm = s.mem.read a := rfl
@[simp] theorem readCell_t (a : Byte) (s : State) : (readCell a s).t = s.t := rfl

/-! ### writeCell -/

@[simp] theorem writeCell_ac (a v : Byte) (s : State) : (writeCell a v s).ac = s.ac := rfl
@[simp] theorem writeCell_pc (a v : Byte) (s : State) : (writeCell a v s).pc = s.pc := rfl
@[simp] theorem writeCell_n (a v : Byte) (s : State) : (writeCell a v s).n = s.n := rfl
@[simp] theorem writeCell_z (a v : Byte) (s : State) : (writeCell a v s).z = s.z := rfl
@[simp] theorem writeCell_mem (a v : Byte) (s : State) : (writeCell a v s).mem = s.mem.write a v := rfl
@[simp] theorem writeCell_run (a v : Byte) (s : State) : (writeCell a v s).run = s.run := rfl
@[simp] theorem writeCell_ri (a v : Byte) (s : State) : (writeCell a v s).ri = s.ri := rfl
@[simp] theorem writeCell_rem (a v : Byte) (s : State) : (writeCell a v s).rem = a := rfl
@[simp] theorem writeCell_rdm (a v : Byte) (s : State) : (writeCell a v s).rdm = v := rfl
@[simp] theorem writeCell_t (a v : Byte) (s : State) : (writeCell a v s).t = s.t := rfl

/-! ### incrementPC -/

@[simp] theorem incrementPC_ac (s : State) : (incrementPC s).ac = s.ac := rfl
@[simp] theorem incrementPC_pc (s : State) : (incrementPC s).pc = s.pc + 1 := rfl
@[simp] theorem incrementPC_n (s : State) : (incrementPC s).n = s.n := rfl
@[simp] theorem incrementPC_z (s : State) : (incrementPC s).z = s.z := rfl
@[simp] theorem incrementPC_mem (s : State) : (incrementPC s).mem = s.mem := rfl
@[simp] theorem incrementPC_run (s : State) : (incrementPC s).run = s.run := rfl
@[simp] theorem incrementPC_ri (s : State) : (incrementPC s).ri = s.ri := rfl
@[simp] theorem incrementPC_rem (s : State) : (incrementPC s).rem = s.rem := rfl
@[simp] theorem incrementPC_rdm (s : State) : (incrementPC s).rdm = s.rdm := rfl
@[simp] theorem incrementPC_t (s : State) : (incrementPC s).t = s.t := rfl

/-! ### loadPC -/

@[simp] theorem loadPC_ac (v : Byte) (s : State) : (loadPC v s).ac = s.ac := rfl
@[simp] theorem loadPC_pc (v : Byte) (s : State) : (loadPC v s).pc = v := rfl
@[simp] theorem loadPC_n (v : Byte) (s : State) : (loadPC v s).n = s.n := rfl
@[simp] theorem loadPC_z (v : Byte) (s : State) : (loadPC v s).z = s.z := rfl
@[simp] theorem loadPC_mem (v : Byte) (s : State) : (loadPC v s).mem = s.mem := rfl
@[simp] theorem loadPC_run (v : Byte) (s : State) : (loadPC v s).run = s.run := rfl
@[simp] theorem loadPC_ri (v : Byte) (s : State) : (loadPC v s).ri = s.ri := rfl
@[simp] theorem loadPC_rem (v : Byte) (s : State) : (loadPC v s).rem = s.rem := rfl
@[simp] theorem loadPC_rdm (v : Byte) (s : State) : (loadPC v s).rdm = s.rdm := rfl
@[simp] theorem loadPC_t (v : Byte) (s : State) : (loadPC v s).t = s.t := rfl

/-! ### loadRI -/

@[simp] theorem loadRI_ac (s : State) : (loadRI s).ac = s.ac := rfl
@[simp] theorem loadRI_pc (s : State) : (loadRI s).pc = s.pc := rfl
@[simp] theorem loadRI_n (s : State) : (loadRI s).n = s.n := rfl
@[simp] theorem loadRI_z (s : State) : (loadRI s).z = s.z := rfl
@[simp] theorem loadRI_mem (s : State) : (loadRI s).mem = s.mem := rfl
@[simp] theorem loadRI_run (s : State) : (loadRI s).run = s.run := rfl
@[simp] theorem loadRI_ri (s : State) : (loadRI s).ri = s.rdm := rfl
@[simp] theorem loadRI_rem (s : State) : (loadRI s).rem = s.rem := rfl
@[simp] theorem loadRI_rdm (s : State) : (loadRI s).rdm = s.rdm := rfl
@[simp] theorem loadRI_t (s : State) : (loadRI s).t = s.t := rfl

/-! ### loadACThroughUal -/

@[simp] theorem loadACThroughUal_ac (op : UalOp) (s : State) : (loadACThroughUal op s).ac = ual op s.ac s.rdm := rfl
@[simp] theorem loadACThroughUal_pc (op : UalOp) (s : State) : (loadACThroughUal op s).pc = s.pc := rfl
@[simp] theorem loadACThroughUal_n (op : UalOp) (s : State) : (loadACThroughUal op s).n = flagN (ual op s.ac s.rdm) := rfl
@[simp] theorem loadACThroughUal_z (op : UalOp) (s : State) : (loadACThroughUal op s).z = flagZ (ual op s.ac s.rdm) := rfl
@[simp] theorem loadACThroughUal_mem (op : UalOp) (s : State) : (loadACThroughUal op s).mem = s.mem := rfl
@[simp] theorem loadACThroughUal_run (op : UalOp) (s : State) : (loadACThroughUal op s).run = s.run := rfl
@[simp] theorem loadACThroughUal_ri (op : UalOp) (s : State) : (loadACThroughUal op s).ri = s.ri := rfl
@[simp] theorem loadACThroughUal_rem (op : UalOp) (s : State) : (loadACThroughUal op s).rem = s.rem := rfl
@[simp] theorem loadACThroughUal_rdm (op : UalOp) (s : State) : (loadACThroughUal op s).rdm = s.rdm := rfl
@[simp] theorem loadACThroughUal_t (op : UalOp) (s : State) : (loadACThroughUal op s).t = s.t := rfl

/-! ### fetchPhase -/

@[simp] theorem fetchPhase_ac (s : State) : (fetchPhase s).ac = s.ac := rfl
@[simp] theorem fetchPhase_pc (s : State) : (fetchPhase s).pc = s.pc + 1 := rfl
@[simp] theorem fetchPhase_n (s : State) : (fetchPhase s).n = s.n := rfl
@[simp] theorem fetchPhase_z (s : State) : (fetchPhase s).z = s.z := rfl
@[simp] theorem fetchPhase_mem (s : State) : (fetchPhase s).mem = s.mem := rfl
@[simp] theorem fetchPhase_run (s : State) : (fetchPhase s).run = s.run := rfl
@[simp] theorem fetchPhase_ri (s : State) : (fetchPhase s).ri = s.mem.read s.pc := rfl
@[simp] theorem fetchPhase_rem (s : State) : (fetchPhase s).rem = s.pc := rfl
@[simp] theorem fetchPhase_rdm (s : State) : (fetchPhase s).rdm = s.mem.read s.pc := rfl
@[simp] theorem fetchPhase_t (s : State) : (fetchPhase s).t = .t3 := rfl

/-! ### endInstruction -/

@[simp] theorem endInstruction_ac (s : State) : (endInstruction s).ac = s.ac := rfl
@[simp] theorem endInstruction_pc (s : State) : (endInstruction s).pc = s.pc := rfl
@[simp] theorem endInstruction_n (s : State) : (endInstruction s).n = s.n := rfl
@[simp] theorem endInstruction_z (s : State) : (endInstruction s).z = s.z := rfl
@[simp] theorem endInstruction_mem (s : State) : (endInstruction s).mem = s.mem := rfl
@[simp] theorem endInstruction_run (s : State) : (endInstruction s).run = s.run := rfl
@[simp] theorem endInstruction_ri (s : State) : (endInstruction s).ri = s.ri := rfl
@[simp] theorem endInstruction_rem (s : State) : (endInstruction s).rem = s.rem := rfl
@[simp] theorem endInstruction_rdm (s : State) : (endInstruction s).rdm = s.rdm := rfl
@[simp] theorem endInstruction_t (s : State) : (endInstruction s).t = .t0 := rfl

/-! ### halt -/

@[simp] theorem halt_ac (s : State) : (halt s).ac = s.ac := rfl
@[simp] theorem halt_pc (s : State) : (halt s).pc = s.pc := rfl
@[simp] theorem halt_n (s : State) : (halt s).n = s.n := rfl
@[simp] theorem halt_z (s : State) : (halt s).z = s.z := rfl
@[simp] theorem halt_mem (s : State) : (halt s).mem = s.mem := rfl
@[simp] theorem halt_run (s : State) : (halt s).run = .halted := rfl
@[simp] theorem halt_ri (s : State) : (halt s).ri = s.ri := rfl
@[simp] theorem halt_rem (s : State) : (halt s).rem = s.rem := rfl
@[simp] theorem halt_rdm (s : State) : (halt s).rdm = s.rdm := rfl
@[simp] theorem halt_t (s : State) : (halt s).t = s.t := rfl

/-! ### raiseReserved -/

@[simp] theorem raiseReserved_ac (s : State) : (raiseReserved s).ac = s.ac := rfl
@[simp] theorem raiseReserved_pc (s : State) : (raiseReserved s).pc = s.pc := rfl
@[simp] theorem raiseReserved_n (s : State) : (raiseReserved s).n = s.n := rfl
@[simp] theorem raiseReserved_z (s : State) : (raiseReserved s).z = s.z := rfl
@[simp] theorem raiseReserved_mem (s : State) : (raiseReserved s).mem = s.mem := rfl
@[simp] theorem raiseReserved_run (s : State) : (raiseReserved s).run = .faulted (.reservedOpcode s.ri) := rfl
@[simp] theorem raiseReserved_ri (s : State) : (raiseReserved s).ri = s.ri := rfl
@[simp] theorem raiseReserved_rem (s : State) : (raiseReserved s).rem = s.rem := rfl
@[simp] theorem raiseReserved_rdm (s : State) : (raiseReserved s).rdm = s.rdm := rfl
@[simp] theorem raiseReserved_t (s : State) : (raiseReserved s).t = s.t := rfl

/-! ### operandFetch -/

@[simp] theorem operandFetch_ac (ender : Byte) (s : State) : (operandFetch ender s).ac = s.ac := rfl
@[simp] theorem operandFetch_pc (ender : Byte) (s : State) : (operandFetch ender s).pc = s.pc + 1 := rfl
@[simp] theorem operandFetch_n (ender : Byte) (s : State) : (operandFetch ender s).n = s.n := rfl
@[simp] theorem operandFetch_z (ender : Byte) (s : State) : (operandFetch ender s).z = s.z := rfl
@[simp] theorem operandFetch_mem (ender : Byte) (s : State) : (operandFetch ender s).mem = s.mem := rfl
@[simp] theorem operandFetch_run (ender : Byte) (s : State) : (operandFetch ender s).run = s.run := rfl
@[simp] theorem operandFetch_ri (ender : Byte) (s : State) : (operandFetch ender s).ri = s.ri := rfl
@[simp] theorem operandFetch_rem (ender : Byte) (s : State) : (operandFetch ender s).rem = s.pc := rfl
@[simp] theorem operandFetch_rdm (ender : Byte) (s : State) : (operandFetch ender s).rdm = ender := rfl
@[simp] theorem operandFetch_t (ender : Byte) (s : State) : (operandFetch ender s).t = s.t := rfl

/-! ### fetchDirect -/

@[simp] theorem fetchDirect_ac (ender : Byte) (s : State) : (fetchDirect ender s).ac = s.ac := rfl
@[simp] theorem fetchDirect_pc (ender : Byte) (s : State) : (fetchDirect ender s).pc = s.pc + 1 := rfl
@[simp] theorem fetchDirect_n (ender : Byte) (s : State) : (fetchDirect ender s).n = s.n := rfl
@[simp] theorem fetchDirect_z (ender : Byte) (s : State) : (fetchDirect ender s).z = s.z := rfl
@[simp] theorem fetchDirect_mem (ender : Byte) (s : State) : (fetchDirect ender s).mem = s.mem := rfl
@[simp] theorem fetchDirect_run (ender : Byte) (s : State) : (fetchDirect ender s).run = s.run := rfl
@[simp] theorem fetchDirect_ri (ender : Byte) (s : State) : (fetchDirect ender s).ri = s.ri := rfl
@[simp] theorem fetchDirect_rem (ender : Byte) (s : State) : (fetchDirect ender s).rem = effectiveAddress ender := rfl
@[simp] theorem fetchDirect_rdm (ender : Byte) (s : State) : (fetchDirect ender s).rdm = s.mem.read (effectiveAddress ender) := rfl
@[simp] theorem fetchDirect_t (ender : Byte) (s : State) : (fetchDirect ender s).t = s.t := rfl

/-! ### jumpTo -/

@[simp] theorem jumpTo_ac (ender : Byte) (s : State) : (jumpTo ender s).ac = s.ac := rfl
@[simp] theorem jumpTo_pc (ender : Byte) (s : State) : (jumpTo ender s).pc = ender := rfl
@[simp] theorem jumpTo_n (ender : Byte) (s : State) : (jumpTo ender s).n = s.n := rfl
@[simp] theorem jumpTo_z (ender : Byte) (s : State) : (jumpTo ender s).z = s.z := rfl
@[simp] theorem jumpTo_mem (ender : Byte) (s : State) : (jumpTo ender s).mem = s.mem := rfl
@[simp] theorem jumpTo_run (ender : Byte) (s : State) : (jumpTo ender s).run = s.run := rfl
@[simp] theorem jumpTo_ri (ender : Byte) (s : State) : (jumpTo ender s).ri = s.ri := rfl
@[simp] theorem jumpTo_rem (ender : Byte) (s : State) : (jumpTo ender s).rem = s.pc := rfl
@[simp] theorem jumpTo_rdm (ender : Byte) (s : State) : (jumpTo ender s).rdm = ender := rfl
@[simp] theorem jumpTo_t (ender : Byte) (s : State) : (jumpTo ender s).t = s.t := rfl

/-! ### stepOver -/

@[simp] theorem stepOver_ac (s : State) : (stepOver s).ac = s.ac := rfl
@[simp] theorem stepOver_pc (s : State) : (stepOver s).pc = s.pc + 1 := rfl
@[simp] theorem stepOver_n (s : State) : (stepOver s).n = s.n := rfl
@[simp] theorem stepOver_z (s : State) : (stepOver s).z = s.z := rfl
@[simp] theorem stepOver_mem (s : State) : (stepOver s).mem = s.mem := rfl
@[simp] theorem stepOver_run (s : State) : (stepOver s).run = s.run := rfl
@[simp] theorem stepOver_ri (s : State) : (stepOver s).ri = s.ri := rfl
@[simp] theorem stepOver_rem (s : State) : (stepOver s).rem = s.rem := rfl
@[simp] theorem stepOver_rdm (s : State) : (stepOver s).rdm = s.rdm := rfl
@[simp] theorem stepOver_t (s : State) : (stepOver s).t = s.t := rfl

/-! ### The UAL, the effective address and the flags of a result -/

@[simp] theorem ual_add (x y : Byte) : ual .add x y = x + y := rfl
@[simp] theorem ual_and (x y : Byte) : ual .and x y = x &&& y := rfl
@[simp] theorem ual_or (x y : Byte) : ual .or x y = x ||| y := rfl
@[simp] theorem ual_not (x y : Byte) : ual .not x y = ~~~x := rfl
@[simp] theorem ual_y (x y : Byte) : ual .y x y = y := rfl
@[simp] theorem effectiveAddress_eq (ender : Byte) : effectiveAddress ender = ender := rfl

theorem flagN_eq (r : Byte) : flagN r = r.getLsbD 7 := by simp [flagN, BitVec.msb_eq_getLsbD_last]

theorem flagZ_eq (r : Byte) : flagZ r = decide (r = 0) := by rw [flagZ]; rfl

end Sys2Proof.Machine
end

