-- ==== Sys2Proof/Laws/Control.lean ====
section
/-! SUPPORT. The time steps of the fetch phase, the end of a run of time steps, and the induction over time steps once. -/

namespace Sys2Proof.Machine

theorem microStep_halted {s : State} (h : s.run = .halted) : microStep s = .fault .alreadyHalted := by
  simp [microStep, h]

theorem microStep_faulted {s : State} {c : Cause} (h : s.run = .faulted c) :
    microStep s = .fault (.alreadyFaulted c) := by
  simp [microStep, h]

theorem microStep_running {s : State} (h : s.run = .running) : microStep s = sequencedStep s := by
  simp [microStep, h]

/-- A time step is taken by a running machine only. -/
theorem running_of_microStep {s s' : State} (h : microStep s = .next s') : s.run = .running := by
  cases hr : s.run with
  | running => rfl
  | halted => rw [microStep_halted hr] at h; cases h
  | faulted c => rw [microStep_faulted hr] at h; cases h

/-- A time step of an instruction with a decoder line active is the transfer under the equations of that line. -/
theorem microStep_transfer {s : State} {op : Opcode} (hr : s.run = .running) (ho : decodeOpcode s.ri = op)
    (hn : op.isReserved = false) : microStep s = transfer (equation s.t op s.n s.z) s := by
  subst ho
  simp [microStep_running hr, sequencedStep, hn, controlSignals]

/-- A time step of the fetch phase is the transfer under the equations, whatever RI holds. -/
theorem microStep_fetch {s : State} (hr : s.run = .running) (ht : s.t.isFetch = true) :
    microStep s = transfer (controlSignals s) s := by
  simp [microStep_running hr, sequencedStep, ht]

/-- What a time step can do: raise the reserved-code fault, or transfer under the control signals. -/
theorem microStep_cases {s s' : State} (h : microStep s = .next s') :
    (s.t.isFetch = false ∧ (decodeOpcode s.ri).isReserved = true ∧ s' = raiseReserved s) ∨
      transfer (controlSignals s) s = .next s' := by
  rw [microStep_running (running_of_microStep h), sequencedStep] at h
  split at h
  · next hc =>
    simp only [Bool.and_eq_true, Bool.not_eq_eq_eq_not, Bool.not_true] at hc
    exact .inl ⟨hc.1, hc.2, by injection h with h; exact h.symm⟩
  · exact .inr h

/-- What a transfer can do to each register (R112, R113). -/
theorem transfer_next {sig : Signal → Bool} {s s' : State} (h : transfer sig s = .next s') :
    nextRDM sig s = some s'.rdm ∧ nextMem sig s = some s'.mem ∧ nextPC sig s = some s'.pc ∧
      nextAcc sig s = some (s'.ac, s'.n, s'.z) ∧ nextTime sig s = some s'.t ∧
      s'.run = (if sig .halt then .halted else s.run) ∧ s'.ri = nextRI sig s ∧ s'.rem = nextREM sig s := by
  unfold transfer at h
  split at h
  · next h1 h2 h3 h4 h5 =>
    injection h with h
    subst h
    exact ⟨h1, h2, h3, h4, h5, rfl, rfl, rfl⟩
  · cases h

/-! ### Runs of time steps, one step at a time -/

theorem microRun_go {k : Nat} {s s' : State} (h : microStep s = .next s') (he : instructionEnded s' = false) :
    microRun (k + 1) s = microRun k s' := by simp [microRun, h, he]

theorem microRun_end {k : Nat} {s s' : State} (h : microStep s = .next s') (he : instructionEnded s' = true) :
    microRun (k + 1) s = .next s' := by simp [microRun, h, he]

theorem microTrace_go {k : Nat} {s s' : State} (h : microStep s = .next s') (he : instructionEnded s' = false) :
    microTrace (k + 1) s = s :: microTrace k s' := by simp [microTrace, h, he]

theorem microTrace_end {k : Nat} {s s' : State} (h : microStep s = .next s') (he : instructionEnded s' = true) :
    microTrace (k + 1) s = [s] := by simp [microTrace, h, he]

/-- A property that every time step keeps, the rest of an instruction keeps. -/
theorem microRun_keeps {P : State → Prop} (hP : ∀ s s', P s → microStep s = .next s' → P s') :
    ∀ (k : Nat) (s s' : State), P s → microRun k s = .next s' → P s'
  | 0, s, s', _, h => by cases h
  | k + 1, s, s', hs, h => by
    rw [microRun] at h
    split at h
    · next s1 h1 =>
      split at h
      · injection h with h; subst h; exact hP _ _ hs h1
      · exact microRun_keeps hP k s1 s' (hP _ _ hs h1) h
    · cases h
    · cases h

/-- A run of time steps that answers has brought the instruction to its end. -/
theorem microRun_ended : ∀ (k : Nat) (s s' : State), microRun k s = .next s' → instructionEnded s' = true
  | 0, s, s', h => by cases h
  | k + 1, s, s', h => by
    rw [microRun] at h
    split at h
    · next s1 h1 =>
      split at h
      · next he => injection h with h; subst h; exact he
      · exact microRun_ended k s1 s' h
    · cases h
    · cases h

end Sys2Proof.Machine
end

