-- ==== Sys2Proof/Laws/Decode.lean ====
section
/-! SUPPORT. The fields of the opcode byte, and the decoder on a byte put together from them. -/

namespace Sys2Proof

@[simp] theorem opcodeField_opcodeByte (c : Code) (low : BitVec 4) : opcodeField (opcodeByte c low) = c := by
  revert c low; decide

@[simp] theorem ignoredField_opcodeByte (c : Code) (low : BitVec 4) : ignoredField (opcodeByte c low) = low := by
  revert c low; decide

/-- Every byte is its two halves. -/
theorem opcodeByte_fields (b : Byte) : opcodeByte (opcodeField b) (ignoredField b) = b := by
  revert b; decide

@[simp] theorem opcodeOfCode_code (op : Opcode) : opcodeOfCode op.code = op := by cases op <;> rfl

@[simp] theorem code_opcodeOfCode (c : Code) : (opcodeOfCode c).code = c := by revert c; decide

@[simp] theorem decodeOpcode_opcodeByte (op : Opcode) (low : BitVec 4) : decodeOpcode (opcodeByte op.code low) = op := by
  simp [decodeOpcode]

/-- A byte that decodes to `op` holds its code in bits 7:4. -/
theorem decodeOpcode_eq_iff (b : Byte) (op : Opcode) : decodeOpcode b = op ↔ opcodeField b = op.code := by
  constructor
  · intro h; rw [← h, decodeOpcode, code_opcodeOfCode]
  · intro h; rw [decodeOpcode, h, opcodeOfCode_code]

/-- On two bytes the decoder never refuses, and answers `decodeInstr`. -/
theorem decode_pair (b e : Byte) :
    ∃ rest, decode [b, e] = .instr (decodeInstr b e) rest := by
  simp only [decode, decodeInstr]
  cases (decodeOpcode b).format with
  | f1 i => exact ⟨[e], rfl⟩
  | f2 mk => exact ⟨[], rfl⟩

@[simp] theorem opcode_decodeInstr (b e : Byte) : (decodeInstr b e).opcode = decodeOpcode b := by
  unfold decodeInstr
  cases decodeOpcode b <;> rfl

end Sys2Proof
end

