-- ==== Sys2Proof/Laws/Memory.lean ====
section
/-! SUPPORT. What reading and writing memory do, and that every memory operation keeps the canonical form. -/

namespace Sys2Proof.Machine

@[simp] theorem Memory.readNat_nil (a : Nat) : Memory.readNat [] a = Config.unlistedByte := rfl

@[simp] theorem Memory.readNat_cons (k a : Nat) (v : Byte) (m : Memory) :
    Memory.readNat ((k, v) :: m) a = if k = a then v else Memory.readNat m a := rfl

@[simp] theorem Memory.read_nil (a : Byte) : Memory.read [] a = Config.unlistedByte := rfl

/-! ### Read after write, on any list -/

@[simp] theorem Memory.readNat_erase_same (m : Memory) (a : Nat) :
    Memory.readNat (Memory.erase m a) a = Config.unlistedByte := by
  induction m with
  | nil => rfl
  | cons c m ih =>
    obtain ⟨k, v⟩ := c
    simp only [Memory.erase] at ih
    by_cases h : k = a <;> simp [Memory.erase, h, ih]

theorem Memory.readNat_erase_other (m : Memory) {a b : Nat} (h : b ≠ a) :
    Memory.readNat (Memory.erase m a) b = Memory.readNat m b := by
  induction m with
  | nil => rfl
  | cons c m ih =>
    obtain ⟨k, v⟩ := c
    simp only [Memory.erase] at ih
    by_cases hk : k = a
    · subst hk
      simp [Memory.erase, ih, Ne.symm h]
    · simp [Memory.erase, hk, ih]

theorem Memory.readNat_insert (m : Memory) (a b : Nat) (v : Byte)
    (hm : Memory.readNat m a = Config.unlistedByte → ∀ c ∈ m, c.1 ≠ a) (hu : Memory.readNat m a = Config.unlistedByte) :
    Memory.readNat (Memory.insert a v m) b = if b = a then v else Memory.readNat m b := by
  have hne := hm hu
  clear hm hu
  induction m with
  | nil =>
    by_cases h : b = a
    · simp [Memory.insert, h]
    · simp [Memory.insert, h, Ne.symm h]
  | cons c m ih =>
    obtain ⟨k, w⟩ := c
    have hk : k ≠ a := hne (k, w) (by simp)
    have ih := ih fun c hc => hne c (by simp [hc])
    by_cases h : b = a
    · subst h
      by_cases hlt : b < k <;> simp [Memory.insert, hlt, ih, hk]
    · have h' : ¬a = b := fun e => h e.symm
      by_cases hlt : a < k <;> simp [Memory.insert, hlt, ih, h, h']

theorem Memory.not_mem_erase (m : Memory) (a : Nat) : ∀ c ∈ Memory.erase m a, c.1 ≠ a := by
  intro c hc
  simpa [Memory.erase] using (List.mem_filter.mp hc).2

/-- Read after write (R23, R24): the written cell holds the byte and every other cell is as before. -/
theorem Memory.read_write (m : Memory) (a b v : Byte) :
    (m.write a v).read b = if b = a then v else m.read b := by
  have hiff : b.toNat = a.toNat ↔ b = a := ⟨BitVec.eq_of_toNat_eq, congrArg _⟩
  unfold Memory.write Memory.read
  by_cases hv : v = Config.unlistedByte
  · by_cases h : b = a
    · subst h; simp [hv]
    · simp [hv, h, Memory.readNat_erase_other m (mt hiff.mp h)]
  · rw [if_neg hv, Memory.readNat_insert _ _ _ _ (fun _ => Memory.not_mem_erase m _) (Memory.readNat_erase_same m _)]
    by_cases h : b = a
    · simp [h]
    · simp [h, mt hiff.mp h, Memory.readNat_erase_other m (mt hiff.mp h)]

@[simp] theorem Memory.read_write_same (m : Memory) (a v : Byte) : (m.write a v).read a = v := by
  simp [Memory.read_write]

theorem Memory.read_write_other (m : Memory) {a b : Byte} (v : Byte) (h : b ≠ a) : (m.write a v).read b = m.read b := by
  simp [Memory.read_write, h]

/-! ### The canonical form -/

@[simp] theorem Memory.wfFrom_nil (lo : Nat) : Memory.wfFrom lo [] = true := rfl

theorem Memory.wfFrom_cons (lo k : Nat) (v : Byte) (m : Memory) :
    Memory.wfFrom lo ((k, v) :: m) = true ↔
      lo ≤ k ∧ k < Config.memCells ∧ v ≠ Config.unlistedByte ∧ Memory.wfFrom (k + 1) m = true := by
  simp [Memory.wfFrom, and_assoc]

theorem Memory.wfFrom_mono {lo lo' : Nat} {m : Memory} (h : lo ≤ lo') (hm : Memory.wfFrom lo' m = true) :
    Memory.wfFrom lo m = true := by
  cases m with
  | nil => rfl
  | cons c m =>
    obtain ⟨k, v⟩ := c
    rw [Memory.wfFrom_cons] at hm ⊢
    exact ⟨le_trans h hm.1, hm.2⟩

theorem Memory.wfFrom_erase {lo : Nat} {m : Memory} (a : Nat) (hm : Memory.wfFrom lo m = true) :
    Memory.wfFrom lo (Memory.erase m a) = true := by
  induction m generalizing lo with
  | nil => rfl
  | cons c m ih =>
    obtain ⟨k, v⟩ := c
    rw [Memory.wfFrom_cons] at hm
    obtain ⟨h1, h2, h3, h4⟩ := hm
    have ih := ih h4
    simp only [Memory.erase] at ih
    by_cases hk : k = a
    · simpa [Memory.erase, hk] using Memory.wfFrom_mono (by omega) ih
    · simp only [Memory.erase, List.filter_cons, bne_iff_ne, ne_eq, hk, not_false_eq_true, if_true]
      exact (Memory.wfFrom_cons ..).mpr ⟨h1, h2, h3, ih⟩

theorem Memory.wfFrom_insert {lo : Nat} {m : Memory} {a : Nat} {v : Byte} (hm : Memory.wfFrom lo m = true) (hlo : lo ≤ a)
    (ha : a < Config.memCells) (hv : v ≠ Config.unlistedByte) (hne : ∀ c ∈ m, c.1 ≠ a) :
    Memory.wfFrom lo (Memory.insert a v m) = true := by
  induction m generalizing lo with
  | nil => simp [Memory.insert, Memory.wfFrom_cons, hlo, ha, hv]
  | cons c m ih =>
    obtain ⟨k, w⟩ := c
    have hk : k ≠ a := hne (k, w) (by simp)
    rw [Memory.wfFrom_cons] at hm
    obtain ⟨h1, h2, h3, h4⟩ := hm
    by_cases hlt : a < k
    · simp only [Memory.insert, hlt, if_true]
      exact (Memory.wfFrom_cons ..).mpr ⟨hlo, ha, hv, (Memory.wfFrom_cons ..).mpr ⟨hlt, h2, h3, h4⟩⟩
    · simp only [Memory.insert, hlt, if_false]
      exact (Memory.wfFrom_cons ..).mpr ⟨h1, h2, h3, ih h4 (by omega) fun c hc => hne c (by simp [hc])⟩

@[simp] theorem Memory.wf_nil : Memory.wf [] = true := rfl

/-- A write keeps the canonical form. -/
theorem Memory.wf_write {m : Memory} (a v : Byte) (hm : m.wf = true) : (m.write a v).wf = true := by
  unfold Memory.write
  split
  · exact Memory.wfFrom_erase _ hm
  · exact Memory.wfFrom_insert (Memory.wfFrom_erase _ hm) (Nat.zero_le _) a.isLt ‹_› (Memory.not_mem_erase m _)

/-- Placing bytes keeps the canonical form. -/
theorem Memory.wf_place {m : Memory} (a : Byte) (bytes : List Byte) (hm : m.wf = true) : (m.place a bytes).wf = true := by
  induction bytes generalizing m a with
  | nil => exact hm
  | cons v rest ih => exact ih _ (Memory.wf_write a v hm)

theorem Memory.readNat_of_wfFrom_lt {lo a : Nat} {m : Memory} (hm : Memory.wfFrom lo m = true) (h : a < lo) :
    Memory.readNat m a = Config.unlistedByte := by
  induction m generalizing lo with
  | nil => rfl
  | cons c m ih =>
    obtain ⟨k, v⟩ := c
    rw [Memory.wfFrom_cons] at hm
    simp [show k ≠ a by omega, ih hm.2.2.2 (by omega)]

end Sys2Proof.Machine
end

