-- ==== Sys2Proof/Laws/PerInstr.lean ====
section
/-! SUPPORT. The family EncodedShape: what every instruction's encodings look like, whatever the ignored low half
(30_encoding.md R37 to R39, R44), and that the terms WellFormed refuses are those whose code is reserved (R46). -/

/-- One byte, or an opcode byte and an address byte; the code in bits 7:4 of the opcode byte. -/
def Sys2Proof.Laws.EncodedShape.Statement (i : Sys2Proof.Instr) : Prop :=
  (i.WellFormed ↔ i.opcode.isReserved = false) ∧
  ∀ low : BitVec 4, ∃ b : Sys2Proof.Byte,
    (Sys2Proof.encodeWith low i = [b] ∨ ∃ e, Sys2Proof.encodeWith low i = [b, e]) ∧
    Sys2Proof.opcodeField b = i.opcode.code ∧ Sys2Proof.ignoredField b = low

namespace Sys2Proof.Laws

/-- An instruction of one byte. -/
theorem encodedShape_one {i : Instr} (hw : i.WellFormed ↔ i.opcode.isReserved = false) (ha : i.addressBytes = []) :
    EncodedShape.Statement i := by
  refine ⟨hw, fun low => ⟨opcodeByte i.opcode.code low, .inl ?_, opcodeField_opcodeByte _ _, ignoredField_opcodeByte _ _⟩⟩
  rw [encodeWith, ha]

/-- An instruction of two bytes. -/
theorem encodedShape_two {i : Instr} {e : Byte} (hw : i.WellFormed ↔ i.opcode.isReserved = false)
    (ha : i.addressBytes = [e]) : EncodedShape.Statement i := by
  refine ⟨hw, fun low => ⟨opcodeByte i.opcode.code low, .inr ⟨e, ?_⟩, opcodeField_opcodeByte _ _, ignoredField_opcodeByte _ _⟩⟩
  rw [encodeWith, ha]

end Sys2Proof.Laws

theorem Sys2Proof.Laws.EncodedShape.nop : Sys2Proof.Laws.EncodedShape.Statement .nop :=
  encodedShape_one (by decide) rfl
theorem Sys2Proof.Laws.EncodedShape.sta (ender : Sys2Proof.Byte) : Sys2Proof.Laws.EncodedShape.Statement (.sta ender) :=
  encodedShape_two (iff_of_true rfl rfl) rfl
theorem Sys2Proof.Laws.EncodedShape.lda (ender : Sys2Proof.Byte) : Sys2Proof.Laws.EncodedShape.Statement (.lda ender) :=
  encodedShape_two (iff_of_true rfl rfl) rfl
theorem Sys2Proof.Laws.EncodedShape.add (ender : Sys2Proof.Byte) : Sys2Proof.Laws.EncodedShape.Statement (.add ender) :=
  encodedShape_two (iff_of_true rfl rfl) rfl
theorem Sys2Proof.Laws.EncodedShape.or (ender : Sys2Proof.Byte) : Sys2Proof.Laws.EncodedShape.Statement (.or ender) :=
  encodedShape_two (iff_of_true rfl rfl) rfl
theorem Sys2Proof.Laws.EncodedShape.and (ender : Sys2Proof.Byte) : Sys2Proof.Laws.EncodedShape.Statement (.and ender) :=
  encodedShape_two (iff_of_true rfl rfl) rfl
theorem Sys2Proof.Laws.EncodedShape.not : Sys2Proof.Laws.EncodedShape.Statement .not :=
  encodedShape_one (by decide) rfl
theorem Sys2Proof.Laws.EncodedShape.reserved0111 : Sys2Proof.Laws.EncodedShape.Statement .reserved0111 :=
  encodedShape_one (by decide) rfl
theorem Sys2Proof.Laws.EncodedShape.jmp (ender : Sys2Proof.Byte) : Sys2Proof.Laws.EncodedShape.Statement (.jmp ender) :=
  encodedShape_two (iff_of_true rfl rfl) rfl
theorem Sys2Proof.Laws.EncodedShape.jn (ender : Sys2Proof.Byte) : Sys2Proof.Laws.EncodedShape.Statement (.jn ender) :=
  encodedShape_two (iff_of_true rfl rfl) rfl
theorem Sys2Proof.Laws.EncodedShape.jz (ender : Sys2Proof.Byte) : Sys2Proof.Laws.EncodedShape.Statement (.jz ender) :=
  encodedShape_two (iff_of_true rfl rfl) rfl
theorem Sys2Proof.Laws.EncodedShape.reserved1011 : Sys2Proof.Laws.EncodedShape.Statement .reserved1011 :=
  encodedShape_one (by decide) rfl
theorem Sys2Proof.Laws.EncodedShape.reserved1100 : Sys2Proof.Laws.EncodedShape.Statement .reserved1100 :=
  encodedShape_one (by decide) rfl
theorem Sys2Proof.Laws.EncodedShape.reserved1101 : Sys2Proof.Laws.EncodedShape.Statement .reserved1101 :=
  encodedShape_one (by decide) rfl
theorem Sys2Proof.Laws.EncodedShape.reserved1110 : Sys2Proof.Laws.EncodedShape.Statement .reserved1110 :=
  encodedShape_one (by decide) rfl
theorem Sys2Proof.Laws.EncodedShape.hlt : Sys2Proof.Laws.EncodedShape.Statement .hlt :=
  encodedShape_one (by decide) rfl
end

