-- ==== Sys2Proof/Laws/Step.lean ====
section
/-! SUPPORT. What a step can do, said once, and the induction over runs. -/

namespace Sys2Proof.Machine

theorem readyToFetch_iff {s : State} : readyToFetch s = true ↔ s.run = .running ∧ s.t = .t0 := by
  simp [readyToFetch]

theorem step_halted {s : State} (h : s.run = .halted) : step s = .fault .alreadyHalted := by simp [step, h]

theorem step_faulted {s : State} {c : Cause} (h : s.run = .faulted c) : step s = .fault (.alreadyFaulted c) := by
  simp [step, h]

/-- A step of a machine that is about to fetch: the fetch phase, then the execution phase of the instruction at PC. -/
theorem step_ready {s : State} (h : readyToFetch s = true) : step s = exec (instructionAt s) (fetchPhase s) := by
  obtain ⟨hr, ht⟩ := readyToFetch_iff.mp h
  simp [step, hr, ht]

/-- A step is taken by a running machine only. -/
theorem running_of_step {s s' : State} (h : step s = .next s') : s.run = .running := by
  cases hr : s.run with
  | running => rfl
  | halted => rw [step_halted hr] at h; cases h
  | faulted c => rw [step_faulted hr] at h; cases h

/-- What a step can do: a whole instruction from t0, or the rest of one. -/
theorem step_cases {s s' : State} (h : step s = .next s') :
    (readyToFetch s = true ∧ exec (instructionAt s) (fetchPhase s) = .next s') ∨
      (s.run = .running ∧ s.t ≠ .t0 ∧ runInstruction s = .next s') := by
  have hr := running_of_step h
  by_cases ht : s.t = .t0
  · have hf := readyToFetch_iff.mpr ⟨hr, ht⟩
    exact .inl ⟨hf, step_ready hf ▸ h⟩
  · refine .inr ⟨hr, ht, ?_⟩
    simpa [step, hr, ht] using h

/-- The opcode of the instruction at PC is the one that DECOD. sees after the fetch phase. -/
@[simp] theorem opcode_instructionAt (s : State) :
    (instructionAt s).opcode = decodeOpcode (s.mem.read s.pc) := opcode_decodeInstr _ _

/-- What the execution phase keeps of the registers that no instruction writes in it: RI (R18). -/
theorem exec_ri {i : Instr} {s s' : State} (h : exec i s = .next s') : s'.ri = s.ri := by
  cases i <;> injection h with h <;> subst h <;> try rfl
  · cases s.n <;> rfl
  · cases s.z <;> rfl

/-- A run of no step stays where it is. -/
theorem reaches_zero {s s' : State} : Reaches 0 s s' ↔ s = s' :=
  ⟨fun h => Host.Outcome.next.inj h, fun h => h ▸ rfl⟩

/-- A run of one step more, for any machine behind the host's interface. -/
theorem core_run_succ (M : Host.Core) (k : Nat) (s s' : M.State) :
    M.run (k + 1) s = .next s' ↔ ∃ s1, M.step s = .next s1 ∧ M.run k s1 = .next s' := by
  rw [Host.Core.run]
  cases h : M.step s with
  | next s1 => exact ⟨fun h' => ⟨s1, rfl, h'⟩, fun ⟨_, h1, h'⟩ => by injection h1 with h1; exact h1 ▸ h'⟩
  | fault r => exact ⟨fun h' => (nomatch h'), fun ⟨_, h1, _⟩ => (nomatch h1)⟩
  | refused r => exact ⟨fun h' => (nomatch h'), fun ⟨_, h1, _⟩ => (nomatch h1)⟩

/-- A run of one step more is a step and the rest of the run. -/
theorem reaches_succ {k : Nat} {s s' : State} :
    Reaches (k + 1) s s' ↔ ∃ s1, step s = .next s1 ∧ Reaches k s1 s' :=
  core_run_succ Sys2Proof.core k s s'

/-- A property that every step keeps, every run keeps. -/
theorem run_keeps {P : State → Prop} (hP : ∀ s s', P s → step s = .next s' → P s') :
    ∀ (k : Nat) (s s' : State), P s → Reaches k s s' → P s'
  | 0, _, _, hs, h => reaches_zero.mp h ▸ hs
  | k + 1, _, s', hs, h => by
    obtain ⟨s1, h1, h2⟩ := reaches_succ.mp h
    exact run_keeps hP k s1 s' (hP _ _ hs h1) h2

end Sys2Proof.Machine
end

