-- ==== Sys2Proof/Tests/Slice0.lean ====
section
/-! SUPPORT. Tests. Expected values are from spec/: the encodings of 30_encoding.md R38 to R43, and the vectors of
95_test_vectors.md, whose ids the test names carry. Then, for every statement of Certificates/Slice0/Obligations.lean that has
hypotheses, a witness: concrete states and operands that meet them. -/

namespace Sys2Proof.Tests

open Sys2Proof Sys2Proof.Machine

/-! ### WellFormed: one ill-formed term for each check, refused -/

theorem test_illFormed_0111 : ¬Instr.reserved0111.WellFormed := by decide
theorem test_illFormed_1011 : ¬Instr.reserved1011.WellFormed := by decide
theorem test_illFormed_1100 : ¬Instr.reserved1100.WellFormed := by decide
theorem test_illFormed_1101 : ¬Instr.reserved1101.WellFormed := by decide
theorem test_illFormed_1110 : ¬Instr.reserved1110.WellFormed := by decide

theorem test_wellFormed_eleven (e : Byte) : Instr.nop.WellFormed ∧ (Instr.sta e).WellFormed ∧ (Instr.lda e).WellFormed ∧
    (Instr.add e).WellFormed ∧ (Instr.or e).WellFormed ∧ (Instr.and e).WellFormed ∧ Instr.not.WellFormed ∧
    (Instr.jmp e).WellFormed ∧ (Instr.jn e).WellFormed ∧ (Instr.jz e).WellFormed ∧ Instr.hlt.WellFormed :=
  ⟨rfl, rfl, rfl, rfl, rfl, rfl, rfl, rfl, rfl, rfl, rfl⟩

/-! ### Decode: words written out from the encodings (95_test_vectors.md section 2) -/

theorem test_decode_nop : decode [0b00000000, 0x77] = .instr .nop [0x77] ∧ decode [0b00001111] = .instr .nop [] := by decide
theorem test_decode_sta : decode [0b00010000, 0x80] = .instr (.sta 0x80) [] ∧
    decode [0b00010111, 0x01] = .instr (.sta 0x01) [] := by decide
theorem test_decode_lda : decode [0b00100000, 0x80] = .instr (.lda 0x80) [] ∧
    decode [0b00101010, 0xFF] = .instr (.lda 0xFF) [] := by decide
theorem test_decode_add : decode [0b00110000, 0x80] = .instr (.add 0x80) [] ∧
    decode [0b00111111, 0x10] = .instr (.add 0x10) [] := by decide
theorem test_decode_or : decode [0b01000000, 0x80] = .instr (.or 0x80) [] ∧
    decode [0b01001000, 0x00] = .instr (.or 0x00) [] := by decide
theorem test_decode_and : decode [0b01010000, 0x80] = .instr (.and 0x80) [] ∧
    decode [0b01010001, 0x7F] = .instr (.and 0x7F) [] := by decide
theorem test_decode_not : decode [0b01100000] = .instr .not [] ∧ decode [0b01101011, 0x01] = .instr .not [0x01] := by decide
theorem test_decode_jmp : decode [0b10000000, 0x40] = .instr (.jmp 0x40) [] ∧
    decode [0b10001100, 0x11] = .instr (.jmp 0x11) [] := by decide
theorem test_decode_jn : decode [0b10010000, 0x40] = .instr (.jn 0x40) [] ∧
    decode [0b10011110, 0x06] = .instr (.jn 0x06) [] := by decide
theorem test_decode_jz : decode [0b10100000, 0x40] = .instr (.jz 0x40) [] ∧
    decode [0b10100101, 0x14] = .instr (.jz 0x14) [] := by decide
theorem test_decode_hlt : decode [0b11110000] = .instr .hlt [] ∧ decode [0b11111111, 0x00] = .instr .hlt [0x00] := by decide
theorem test_decode_reserved0111 : decode [0b01110000] = .instr .reserved0111 [] ∧
    decode [0b01111111, 0x01] = .instr .reserved0111 [0x01] := by decide
theorem test_decode_reserved1011 : decode [0b10110000] = .instr .reserved1011 [] ∧
    decode [0b10111111] = .instr .reserved1011 [] := by decide
theorem test_decode_reserved1100 : decode [0b11000000] = .instr .reserved1100 [] ∧
    decode [0b11000101] = .instr .reserved1100 [] := by decide
theorem test_decode_reserved1101 : decode [0b11010000] = .instr .reserved1101 [] ∧
    decode [0b11011101] = .instr .reserved1101 [] := by decide
theorem test_decode_reserved1110 : decode [0b11100000] = .instr .reserved1110 [] ∧
    decode [0b11101111] = .instr .reserved1110 [] := by decide

theorem test_decode_rejects_by_name : decode [] = .rejected .noOpcodeByte ∧
    decode [0b00010000] = .rejected (.noAddressByte .sta) ∧ decode [0b10101111] = .rejected (.noAddressByte .jz) := by decide

/-- The table numbers the address byte in bits 15..8, and gives NOT one byte. -/
theorem test_decodeTableWord : decodeTableWord 16 0x8010 = some (.sta 0x80) ∧ decodeTableWord 8 0x60 = some .not ∧
    decodeTableWord 8 0xE0 = some .reserved1110 := by decide

/-! ### One step of each instruction (95_test_vectors.md section 3) -/

/-- A machine about to fetch, with other values in the hidden registers. -/
def cpu (pc ac : Byte) (n z : Bool) (mem : Memory) : State :=
  State.launch { startPC := pc, initMem := mem, initAC := ac, initN := n, initZ := z,
                 initRI := 0xEE, initREM := 0xED, initRDM := 0xEC }

/-- The machine steps, to these values of what the instruction level sees of its registers. -/
def StepsTo (s : State) (pc ac : Byte) (n z : Bool) (run : Run) : Prop :=
  ∃ s', step s = .next s' ∧ s'.pc = pc ∧ s'.ac = ac ∧ s'.n = n ∧ s'.z = z ∧ s'.run = run

/-- The machine steps, and then the cell holds the byte. -/
def StepStores (s : State) (a v : Byte) : Prop := ∃ s', step s = .next s' ∧ s'.mem.read a = v

theorem test_sta_S2_no_flag_written : StepsTo (cpu 0x10 0x00 true false [(0x10, 0x10), (0x11, 0x80), (0x80, 0xFF)])
    0x12 0x00 true false .running := ⟨_, rfl, by decide⟩
theorem test_sta_S4_onto_its_own_opcode : StepStores (cpu 0x20 0xF0 true false [(0x20, 0x10), (0x21, 0x20)]) 0x20 0xF0 :=
  ⟨_, rfl, by decide⟩
theorem test_lda_S10 : StepsTo (cpu 0x30 0x00 false true [(0x30, 0x20), (0x31, 0x80), (0x80, 0x80)])
    0x32 0x80 true false .running := ⟨_, rfl, by decide⟩
theorem test_lda_S15_straddles_the_top : StepsTo (cpu 0xFF 0x00 false false [(0x00, 0x80), (0x80, 0xAA), (0xFF, 0x20)])
    0x01 0xAA true false .running := ⟨_, rfl, by decide⟩
theorem test_add_A3_carry_discarded : StepsTo (cpu 0x40 0x01 false false [(0x40, 0x30), (0x41, 0x80), (0x80, 0xFF)])
    0x42 0x00 false true .running := ⟨_, rfl, by decide⟩
theorem test_add_A4_overflow : StepsTo (cpu 0x40 0x7F false false [(0x40, 0x30), (0x41, 0x80), (0x80, 0x01)])
    0x42 0x80 true false .running := ⟨_, rfl, by decide⟩
theorem test_or_A12 : StepsTo (cpu 0x40 0x0F false true [(0x40, 0x40), (0x41, 0x80), (0x80, 0xF0)])
    0x42 0xFF true false .running := ⟨_, rfl, by decide⟩
theorem test_and_A16 : StepsTo (cpu 0x40 0x0F true false [(0x40, 0x50), (0x41, 0x80), (0x80, 0xF0)])
    0x42 0x00 false true .running := ⟨_, rfl, by decide⟩
theorem test_and_A17 : StepsTo (cpu 0x40 0xFF false false [(0x40, 0x50), (0x41, 0x80), (0x80, 0x80)])
    0x42 0x80 true false .running := ⟨_, rfl, by decide⟩
theorem test_not_A22 : StepsTo (cpu 0x40 0xFF true false [(0x40, 0x60)]) 0x41 0x00 false true .running := ⟨_, rfl, by decide⟩
theorem test_not_A26_wraps : StepsTo (cpu 0xFF 0x0F false false [(0xFF, 0x60)]) 0x00 0xF0 true false .running :=
  ⟨_, rfl, by decide⟩
theorem test_jmp_J4_straddles_the_top : StepsTo (cpu 0xFF 0x00 false false [(0x00, 0x33), (0xFF, 0x80)])
    0x33 0x00 false false .running := ⟨_, rfl, by decide⟩
theorem test_jn_J7_taken : StepsTo (cpu 0x10 0x05 true true [(0x10, 0x90), (0x11, 0x40)]) 0x40 0x05 true true .running :=
  ⟨_, rfl, by decide⟩
theorem test_jn_J10_untaken : StepsTo (cpu 0xFF 0x00 false true [(0xFF, 0x9E)]) 0x01 0x00 false true .running :=
  ⟨_, rfl, by decide⟩
theorem test_jz_J14_taken : StepsTo (cpu 0x10 0x77 true true [(0x10, 0xA5), (0x11, 0x40)]) 0x40 0x77 true true .running :=
  ⟨_, rfl, by decide⟩
theorem test_jz_J15_untaken : StepsTo (cpu 0x10 0x00 false false [(0x10, 0xA0)]) 0x12 0x00 false false .running :=
  ⟨_, rfl, by decide⟩
theorem test_nop_X2 : StepsTo (cpu 0x10 0x00 false true [(0x10, 0x0F)]) 0x11 0x00 false true .running := ⟨_, rfl, by decide⟩
theorem test_hlt_X6 : StepsTo (cpu 0xFF 0x11 false false [(0xFF, 0xFF)]) 0x00 0x11 false false .halted := ⟨_, rfl, by decide⟩
theorem test_reserved0111_X8 : StepsTo (cpu 0x10 0x00 false true [(0x10, 0x7F)]) 0x11 0x00 false true
    (.faulted (.reservedOpcode 0x7F)) := ⟨_, rfl, by decide⟩
theorem test_reserved1011_X9 : StepsTo (cpu 0x10 0x00 false false [(0x10, 0xB0)]) 0x11 0x00 false false
    (.faulted (.reservedOpcode 0xB0)) := ⟨_, rfl, by decide⟩
theorem test_reserved1100_X10 : StepsTo (cpu 0x10 0x00 false false [(0x10, 0xC5)]) 0x11 0x00 false false
    (.faulted (.reservedOpcode 0xC5)) := ⟨_, rfl, by decide⟩
theorem test_reserved1101_X11 : StepsTo (cpu 0x10 0x00 false false [(0x10, 0xD0)]) 0x11 0x00 false false
    (.faulted (.reservedOpcode 0xD0)) := ⟨_, rfl, by decide⟩
theorem test_reserved1110_X12 : StepsTo (cpu 0xFF 0x42 false false [(0xFF, 0xEF)]) 0x00 0x42 false false
    (.faulted (.reservedOpcode 0xEF)) := ⟨_, rfl, by decide⟩

/-! ### The organisation level (95_test_vectors.md section 4) -/

theorem test_signals_of_add_4_1 : activeSignals .t7 .add false false = [.ual .add, .cargaAC, .cargaNZ, .gotoT0] ∧
    activeSignals .t5 .add false false = [.cargaREM, .sel] := by decide
theorem test_signals_of_jn_4_6 : activeSignals .t3 .jn false false = [.incrementaPC, .gotoT0] := by decide
theorem test_accesses_of_sta_4_2 : accesses (cpu 0x04 0x0C false false [(0x04, 0x10), (0x05, 0x80)]) =
    [.read 0x04 0x10, .read 0x05 0x80, .write 0x80 0x0C] := by decide
theorem test_hidden_registers_of_jz_4_5 : ∃ s',
    runInstruction (cpu 0x10 0x00 false true [(0x10, 0xA0), (0x11, 0x40)]) = .next s' ∧
    s'.rem = 0x11 ∧ s'.rdm = 0x40 ∧ s'.ri = 0xA0 ∧ s'.pc = 0x40 ∧ s'.t = .t0 := ⟨_, rfl, by decide⟩

/-! ### Memory and reset -/

theorem test_write_keeps_the_canonical_form : Memory.write [(0x10, 0x01), (0x30, 0x02)] 0x20 0x05 =
    [(0x10, 0x01), (0x20, 0x05), (0x30, 0x02)] ∧ Memory.write [(0x10, 0x01)] 0x10 0x00 = [] := by decide
theorem reset_inv : MemoryCanonical State.reset ∧ readyToFetch State.reset = true := ⟨rfl, rfl⟩
theorem test_withFetchWord : StepsTo (State.reset.withFetchWord 16 0x40A0) 0x02 0x00 false false .running ∧
    StepsTo (State.reset.withFetchWord 8 0x60) 0x01 0xFF true false .running := ⟨⟨_, rfl, by decide⟩, ⟨_, rfl, by decide⟩⟩

/-! ### Witnesses: states and operands that meet the hypotheses of each statement together

The instruction of `top` is at 0xFF, its address byte at 0x00: the boundary of every clause about PC or an address. -/

/-- A machine about to fetch the opcode byte `b` at 0xFF, with the address byte `e` at 0x00. -/
def top (b e : Byte) (n z : Bool) : State := cpu 0xFF 0x80 n z (Memory.write [(0xFF, b)] 0x00 e)

/-- A machine in the middle of the instruction whose opcode byte is `b`. -/
def inside (t : TimeState) (b : Byte) (n z : Bool) : State := { top b 0xFF n z with t := t, ri := b }

/-- A stopped machine. -/
def stoppedAs (r : Run) : State := { top 0xF0 0xFF false false with run := r, t := .t3 }

/-- The hypotheses of the step clauses: ready, this opcode, and the names of the two addresses' contents. -/
def Fetches (s : State) (op : Opcode) (a e : Byte) : Prop :=
  readyToFetch s = true ∧ opcodeAt s = op ∧ a = s.pc ∧ e = s.mem.read (a + 1) ∧ e = addressByteAt s

/-- The hypotheses of the clauses about a step of a given opcode. -/
def StepsFrom (s : State) (op : Opcode) : Prop := readyToFetch s = true ∧ opcodeAt s = op ∧ ∃ s', step s = .next s'

theorem fetches_intro {s : State} {op : Opcode} {a e : Byte} (h1 : readyToFetch s = true) (h2 : opcodeAt s = op)
    (h3 : a = s.pc) (h4 : e = s.mem.read (a + 1)) : Fetches s op a e := by
  subst h3; exact ⟨h1, h2, rfl, h4, h4⟩

theorem inTimeState_intro {t : TimeState} {b : Byte} {n z : Bool} {op : Opcode} (h : decodeOpcode b = op) :
    InTimeState (inside t b n z) t op := ⟨rfl, rfl, h⟩

theorem witness_DecodeReadsExactlyTheEncodings : (Instr.sta 0xFF).WellFormed ∧ (Instr.hlt).WellFormed ∧
    decode [0x1F, 0x00, 0xFF] = .instr (.sta 0x00) [0xFF] ∧ [0x1F, 0x00, 0xFF] = encodeWith 0xF (.sta 0x00) ++ [0xFF] := by
  decide

theorem witness_DecodingDependsOnTheCodeAlone : (0x10 : Byte).extractLsb' 4 4 = (0x1F : Byte).extractLsb' 4 4 ∧
    (decodeInstr 0xFF 0xFF).addressBytes = [] ∧ (decodeInstr 0xAF 0xFF).addressBytes = [0xFF] := by decide

theorem witness_ConditionalJumpsAreTwoBytes :
    (Fetches (top 0x9F 0xFF false true) .jn 0xFF 0xFF ∧ (top 0x9F 0xFF false true).n = false) ∧
    (Fetches (top 0xA0 0x00 true false) .jz 0xFF 0x00 ∧ (top 0xA0 0x00 true false).z = false) :=
  ⟨⟨fetches_intro rfl rfl rfl rfl, rfl⟩, ⟨fetches_intro rfl rfl rfl rfl, rfl⟩⟩

theorem witness_StepRunsTheDecodedInstruction : readyToFetch (top 0x1F 0xFF false false) = true ∧
    decode [(top 0x1F 0xFF false false).mem.read 0xFF, (top 0x1F 0xFF false false).mem.read (0xFF + 1)] =
      .instr (.sta 0xFF) [] ∧
    decode [(top 0xE0 0xFF false false).mem.read 0xFF, (top 0xE0 0xFF false false).mem.read (0xFF + 1)] =
      .instr .reserved1110 [0xFF] := by decide

theorem witness_WithFetchWordIsRunNext : decodeTableWord 16 0xFF1F = some (.sta 0xFF) ∧ decodeTableWord 8 0x00 = some .nop := by
  decide

theorem witness_StepFollowsThePseudocode : readyToFetch (top 0x1F 0xFF false false) = true ∧
    ∃ s', step (top 0x1F 0xFF false false) = .next s' := ⟨rfl, _, rfl⟩

theorem witness_InstructionAndOrganisationLevelsAgree : readyToFetch (top 0xBF 0xFF true true) = true ∧
    readyToFetch (top 0x1F 0xFF true true) = true := ⟨rfl, rfl⟩

theorem witness_StoppedMachineHasNoStep : (stoppedAs .halted).run = .halted ∧
    (stoppedAs (.faulted (.reservedOpcode 0xEF))).run = .faulted (.reservedOpcode 0xEF) := ⟨rfl, rfl⟩

theorem witness_ReadyMachineAlwaysSteps : readyToFetch (top 0x7F 0xFF true true) = true := rfl

theorem witness_OpcodeByteDecidesTheStop : StepsFrom (top 0xF0 0x00 false false) .hlt ∧
    StepsFrom (top 0xEF 0x00 false false) .reserved1110 ∧ StepsFrom (top 0x0F 0x00 false false) .nop :=
  ⟨⟨rfl, rfl, _, rfl⟩, ⟨rfl, rfl, _, rfl⟩, ⟨rfl, rfl, _, rfl⟩⟩

theorem witness_StaStoresTheAccumulator : Fetches (top 0x1F 0xFF false false) .sta 0xFF 0xFF :=
  fetches_intro rfl rfl rfl rfl

theorem witness_LdaLoadsTheAccumulator : Fetches (top 0x2F 0xFF false false) .lda 0xFF 0xFF ∧
    0x2F = (top 0x2F 0xFF false false).mem.read 0xFF := ⟨fetches_intro rfl rfl rfl rfl, rfl⟩

theorem witness_AddAddsModulo256 : Fetches (top 0x30 0xFF false false) .add 0xFF 0xFF ∧
    0x30 = (top 0x30 0xFF false false).mem.read 0xFF ∧
    0xB0 = BitVec.ofNat 8 (((top 0x30 0xFF false false).ac.toNat + (0x30 : Byte).toNat) % 256) :=
  ⟨fetches_intro rfl rfl rfl rfl, rfl, rfl⟩

theorem witness_OrTakesBitwiseOr : Fetches (top 0x41 0xFF false false) .or 0xFF 0xFF ∧
    0x41 = (top 0x41 0xFF false false).mem.read 0xFF ∧
    (∀ k < 8, (0xC1 : Byte).getLsbD k = ((top 0x41 0xFF false false).ac.getLsbD k || (0x41 : Byte).getLsbD k)) ∧
    ∃ t, exec (.or 0xFF) (top 0x41 0xFF false false) = .next t :=
  ⟨fetches_intro rfl rfl rfl rfl, rfl, by decide, _, rfl⟩

theorem witness_AndTakesBitwiseAnd : Fetches (top 0x51 0xFF false false) .and 0xFF 0xFF ∧
    0x51 = (top 0x51 0xFF false false).mem.read 0xFF ∧
    (∀ k < 8, (0x00 : Byte).getLsbD k = ((top 0x51 0xFF false false).ac.getLsbD k && (0x51 : Byte).getLsbD k)) ∧
    ∃ t, exec (.and 0xFF) (top 0x51 0xFF false false) = .next t :=
  ⟨fetches_intro rfl rfl rfl rfl, rfl, by decide, _, rfl⟩

theorem witness_NotComplements : Fetches (top 0x6F 0xFF false false) .not 0xFF 0xFF ∧
    0x7F = BitVec.ofNat 8 (255 - (top 0x6F 0xFF false false).ac.toNat) ∧
    ∃ s1 s2, exec .not (top 0x6F 0xFF false false) = .next s1 ∧ exec .not s1 = .next s2 :=
  ⟨fetches_intro rfl rfl rfl rfl, by decide, _, _, rfl, rfl⟩

theorem witness_JmpJumps : Fetches (top 0x8F 0xFF false false) .jmp 0xFF 0xFF := fetches_intro rfl rfl rfl rfl

theorem witness_JnJumpsIfNegative :
    (Fetches (top 0x9F 0xFF true false) .jn 0xFF 0xFF ∧ (top 0x9F 0xFF true false).n = true) ∧
    (Fetches (top 0x9F 0xFF false true) .jn 0xFF 0xFF ∧ (top 0x9F 0xFF false true).n = false) :=
  ⟨⟨fetches_intro rfl rfl rfl rfl, rfl⟩, ⟨fetches_intro rfl rfl rfl rfl, rfl⟩⟩

theorem witness_JzJumpsIfZero :
    (Fetches (top 0xAF 0xFF false true) .jz 0xFF 0xFF ∧ (top 0xAF 0xFF false true).z = true) ∧
    (Fetches (top 0xAF 0xFF true false) .jz 0xFF 0xFF ∧ (top 0xAF 0xFF true false).z = false) :=
  ⟨⟨fetches_intro rfl rfl rfl rfl, rfl⟩, ⟨fetches_intro rfl rfl rfl rfl, rfl⟩⟩

theorem witness_NopOnlyAdvancesPC : Fetches (top 0x0F 0xFF true true) .nop 0xFF 0xFF ∧ (0x0F : Byte).toNat ≤ 0x0F ∧
    (0x00 : Byte).toNat ≤ 0x0F := ⟨fetches_intro rfl rfl rfl rfl, by decide, by decide⟩

theorem witness_HltHalts : Fetches (top 0xF0 0xFF true true) .hlt 0xFF 0xFF ∧ 0xF0 ≤ (0xF0 : Byte).toNat ∧
    0xF0 ≤ (0xFF : Byte).toNat := ⟨fetches_intro rfl rfl rfl rfl, by decide, by decide⟩

theorem witness_ReservedCodesFault : Fetches (top 0xEF 0xFF true true) .reserved1110 0xFF 0xFF ∧
    (opcodeAt (top 0xEF 0xFF true true)).isReserved = true ∧ 0xEF = (top 0xEF 0xFF true true).mem.read 0xFF ∧
    (∀ b ∈ ([0x70, 0x7F, 0xB0, 0xBF, 0xC0, 0xCF, 0xD0, 0xDF, 0xE0, 0xEF] : List Byte), (decodeOpcode b).isReserved = true) ∧
    (∀ b ∈ ([0x6F, 0x80, 0xAF, 0xF0] : List Byte), (decodeOpcode b).isReserved = false) :=
  ⟨fetches_intro rfl rfl rfl rfl, rfl, rfl, by decide, by decide⟩

theorem witness_FrameOfNonStoringInstructions :
    ((Instr.lda 0xFF).opcode ≠ .sta ∧ ∃ s', exec (.lda 0xFF) (top 0x20 0xFF true true) = .next s') ∧
    (Instr.jn 0xFF).opcode ∉ [.lda, .add, .or, .and, .not] ∧ (Instr.jn 0xFF).opcode ≠ .hlt ∧
    (Instr.jn 0xFF).opcode.isReserved = false ∧ (∃ s', exec (.jn 0xFF) (top 0x90 0xFF true true) = .next s') ∧
    Instr.not.addressBytes = [] ∧ ∃ s', exec .not (top 0x60 0xFF true true) = .next s' :=
  ⟨⟨by decide, _, rfl⟩, by decide, by decide, rfl, ⟨_, rfl⟩, rfl, _, rfl⟩

theorem witness_FrameOfSta : (∃ s', exec (.sta 0xFF) (top 0x10 0xFF true true) = .next s') ∧ effectiveAddress 0xFF = 0xFF :=
  ⟨⟨_, rfl⟩, rfl⟩

theorem witness_OnlyStaWritesMemory : (0x00 : Byte) ≠ 0xFF ∧ StepsFrom (top 0x10 0xFF true true) .sta ∧
    ∃ s', step (top 0x10 0xFF true true) = .next s' ∧ s'.mem.read 0xFF ≠ (top 0x10 0xFF true true).mem.read 0xFF :=
  ⟨by decide, ⟨rfl, rfl, _, rfl⟩, _, rfl, by decide⟩

theorem witness_AccessToACByInstruction : StepsFrom (top 0x20 0xFF true true) .lda ∧ StepsFrom (top 0x30 0xFF true true) .add ∧
    StepsFrom (top 0x40 0xFF true true) .or ∧ StepsFrom (top 0x50 0xFF true true) .and ∧
    StepsFrom (top 0x60 0xFF true true) .not ∧ StepsFrom (top 0x10 0xFF true true) .sta ∧
    StepsFrom (top 0x80 0xFF true true) .jmp ∧ Opcode.jmp ∉ [Opcode.lda, .add, .or, .and, .not] ∧
    Opcode.lda ∉ [Opcode.sta, .add, .or, .and, .not] ∧ Opcode.jmp ∉ [Opcode.sta, .add, .or, .and, .not] :=
  ⟨⟨rfl, rfl, _, rfl⟩, ⟨rfl, rfl, _, rfl⟩, ⟨rfl, rfl, _, rfl⟩, ⟨rfl, rfl, _, rfl⟩, ⟨rfl, rfl, _, rfl⟩, ⟨rfl, rfl, _, rfl⟩,
    ⟨rfl, rfl, _, rfl⟩, by decide, by decide, by decide⟩

theorem witness_WhoWritesAndReadsTheFlags : StepsFrom (top 0x50 0xFF true true) .and ∧
    StepsFrom (top 0xAF 0xFF true true) .jz ∧ StepsFrom (top 0x9F 0xFF true true) .jn ∧
    Opcode.jz ∉ [Opcode.lda, .add, .or, .and, .not] ∧
    equation .t3 .jn true false .cargaREM ≠ equation .t3 .jn false false .cargaREM ∧
    equation .t5 .jz false true .gotoT0 ≠ equation .t5 .jz false false .gotoT0 :=
  ⟨⟨rfl, rfl, _, rfl⟩, ⟨rfl, rfl, _, rfl⟩, ⟨rfl, rfl, _, rfl⟩, by decide, by decide, by decide⟩

theorem witness_HowPCAdvances : StepsFrom (top 0x6F 0xFF true true) .not ∧ StepsFrom (top 0x1F 0xFF true true) .sta ∧
    StepsFrom (top 0x80 0xFF true true) .jmp ∧
    (StepsFrom (top 0x90 0xFF true false) .jn ∧ (top 0x90 0xFF true false).n = true) ∧
    (StepsFrom (top 0xA0 0xFF true false) .jz ∧ (top 0xA0 0xFF true false).z = false) ∧
    ∃ (s s1 s2 : State), readyToFetch s = true ∧ s.mem.read 0x10 = s.mem.read s.pc ∧
      s.mem.read (0x10 + 1) = s.mem.read (s.pc + 1) ∧ s.pc ≠ 0x10 ∧ step s = .next s1 ∧
      step { s with pc := 0x10 } = .next s2 :=
  ⟨⟨rfl, rfl, _, rfl⟩, ⟨rfl, rfl, _, rfl⟩, ⟨rfl, rfl, _, rfl⟩, ⟨⟨rfl, rfl, _, rfl⟩, rfl⟩, ⟨⟨rfl, rfl, _, rfl⟩, rfl⟩,
    cpu 0xFF 0x55 false false [(0x00, 0x77), (0x10, 0x10), (0x11, 0x77), (0xFF, 0x10)], _, _, by decide, by decide, by decide,
    by decide, rfl, rfl⟩

theorem witness_PCWrapsAtTheTopOfMemory : (top 0xF0 0x00 false false).pc = 0xFF ∧ StepsFrom (top 0xF0 0x00 false false) .hlt ∧
    StepsFrom (top 0x5F 0x00 false false) .and ∧ StepsFrom (top 0x8F 0x00 false false) .jmp ∧
    (cpu 0xFE 0x00 false false [(0xFE, 0x10)]).pc = 0xFE ∧ StepsFrom (cpu 0xFE 0x00 false false [(0xFE, 0x10)]) .sta :=
  ⟨rfl, ⟨rfl, rfl, _, rfl⟩, ⟨rfl, rfl, _, rfl⟩, ⟨rfl, rfl, _, rfl⟩, rfl, rfl, rfl, _, rfl⟩

/-- Operands of ADD at the ends of each clause's range: sums 127, -128, 128, -129 and 255, 256. -/
theorem witness_SignedReadingOfAdd : (∀ (e : Byte) (s : State), ∃ t, exec (.add e) s = .next t) ∧
    (0x7F : Byte).toInt + (0x00 : Byte).toInt = 127 ∧ (0x80 : Byte).toInt + (0x00 : Byte).toInt = -128 ∧
    (0x7F : Byte).toInt + (0x01 : Byte).toInt = 128 ∧ (0x80 : Byte).toInt + (0xFF : Byte).toInt = -129 ∧
    (0xFF : Byte).toNat + (0x00 : Byte).toNat = 255 ∧ (0xFF : Byte).toNat + (0x01 : Byte).toNat = 256 :=
  ⟨fun _ _ => ⟨_, rfl⟩, by decide, by decide, by decide, by decide, by decide, by decide⟩

theorem witness_AccessesOfEachInstruction : Fetches (top 0x0F 0xFF true true) .nop 0xFF 0xFF ∧
    Fetches (top 0x1F 0xFF true true) .sta 0xFF 0xFF ∧ Fetches (top 0x3F 0xFF true true) .add 0xFF 0xFF ∧
    Fetches (top 0x9F 0xFF true true) .jn 0xFF 0xFF ∧ (top 0x9F 0xFF true true).n = true ∧
    Fetches (top 0xAF 0xFF true false) .jz 0xFF 0xFF ∧ (top 0xAF 0xFF true false).z = false ∧
    Fetches (top 0x7F 0xFF true true) .reserved0111 0xFF 0xFF ∧ Opcode.reserved0111.isReserved = true :=
  ⟨fetches_intro rfl rfl rfl rfl, fetches_intro rfl rfl rfl rfl, fetches_intro rfl rfl rfl rfl, fetches_intro rfl rfl rfl rfl,
    rfl, fetches_intro rfl rfl rfl rfl, rfl, fetches_intro rfl rfl rfl rfl, rfl⟩

theorem witness_ReadsReturnTheLatestWrite : readyToFetch (top 0x1F 0xFF true true) = true ∧
    ∃ s', Reaches 2 (top 0x1F 0xFF true true) s' := ⟨rfl, _, rfl⟩

/-- A store over the next opcode byte, and one over the byte after that. -/
theorem witness_StoreIsSeenByTheNextFetch : Fetches (top 0x1F 0x01 true true) .sta 0xFF 0x01 ∧ (0x01 : Byte) = 0xFF + 2 ∧
    Fetches (top 0x1F 0x02 true true) .sta 0xFF 0x02 ∧ (0x02 : Byte) = 0xFF + 3 :=
  ⟨fetches_intro rfl rfl rfl rfl, rfl, fetches_intro rfl rfl rfl rfl, rfl⟩

theorem witness_EveryContentIsOneMemory : Memory.wf [(0x00, 0x01), (0xFF, 0xFF)] = true ∧ Memory.wf [] = true ∧
    ∀ a : Byte, Memory.read [] a = (fun _ => 0x00 : Byte → Byte) a := ⟨by decide, rfl, fun _ => rfl⟩

theorem witness_StepKeepsMemoryCanonical :
    (MemoryCanonical (top 0x1F 0xFF true true) ∧ ∃ s', step (top 0x1F 0xFF true true) = .next s') ∧
    (MemoryCanonical (inside .t7 0x1F true true) ∧ ∃ s', step (inside .t7 0x1F true true) = .next s') :=
  ⟨⟨rfl, _, rfl⟩, ⟨rfl, _, rfl⟩⟩

theorem witness_FlagsAgreeForEverAfter : StepsFrom (top 0x20 0xFF true true) .lda ∧ FlagsAgree (top 0x1F 0xFF true false) ∧
    (∃ s', step (top 0x1F 0xFF true false) = .next s') ∧ ∃ s', Reaches 2 (top 0x1F 0xFF true false) s' :=
  ⟨⟨rfl, rfl, _, rfl⟩, ⟨rfl, rfl⟩, ⟨_, rfl⟩, _, rfl⟩

theorem witness_TimeStepKeepsInvariants : MemoryCanonical (inside .t7 0x3F true false) ∧ FlagsAgree (inside .t7 0x3F true false) ∧
    ∃ s', microStep (inside .t7 0x3F true false) = .next s' := ⟨rfl, ⟨rfl, rfl⟩, _, rfl⟩

theorem witness_StepEndsBetweenInstructions : (∃ s', step (top 0xF0 0xFF true true) = .next s') ∧
    ∃ s', step (inside .t5 0x8F true true) = .next s' := ⟨⟨_, rfl⟩, _, rfl⟩

theorem witness_RestOfAnInstruction : (inside .t3 0xF0 true true).run = .running ∧ (inside .t3 0xF0 true true).t.isFetch = false ∧
    (∃ s', step (inside .t3 0xF0 true true) = .next s' ∧ s'.run = .halted) ∧
    (∃ s', step (inside .t7 0xEF true true) = .next s' ∧ s'.run = .faulted (.reservedOpcode 0xEF)) ∧
    step (inside .t4 0x0F true true) = .fault (.unstatedTimeStep .t7) :=
  ⟨rfl, rfl, ⟨_, rfl, rfl⟩, ⟨_, rfl, rfl⟩, rfl⟩

theorem witness_RunGoesOnUntilItStops : readyToFetch (top 0x8F 0xFF true true) = true ∧
    readyToFetch (top 0xF0 0xFF true true) = true := ⟨rfl, rfl⟩

theorem witness_RunHasAtMostOneEnd : ∃ s', Reaches 1 (top 0xF0 0xFF true true) s' ∧ Stopped s' ∧
    ∃ s2, Reaches 0 (top 0xF0 0xFF true true) s2 := ⟨_, rfl, nofun, _, rfl⟩

theorem witness_HostReadsAfterTheEnd : (top 0x00 0xFF true true).run = .running ∧ (stoppedAs .halted).run = .halted ∧
    (stoppedAs (.faulted (.reservedOpcode 0x70))).run = .faulted (.reservedOpcode 0x70) := ⟨rfl, rfl, rfl⟩

theorem witness_WhatEachControlSignalDoes : (inside .t0 0x00 true true).t.succ = some .t1 ∧
    (inside .t6 0x00 true true).t.succ = some .t7 := ⟨rfl, rfl⟩

theorem witness_EquationsGiveTheTables : Column.applies true true .jnTaken = true ∧
    (Column.jnTaken).cells[TimeState.t5.index]? = some [.cargaPC, .gotoT0] ∧ Column.applies false true .jnUntaken = true ∧
    (Column.jnUntaken).cells[TimeState.t3.index]? = some [.incrementaPC, .gotoT0] ∧ Column.applies true true .sta = true ∧
    (Column.sta).cells[TimeState.t7.index]? = some [.write, .gotoT0] ∧
    (Column.hlt).cells[TimeState.t0.index]? = some [.cargaREM] := by decide

theorem witness_SignalsOfATimeStepDoNotInterfere : equation .t7 .add true true .cargaAC = true := rfl

theorem witness_FetchPhaseInTimeSteps : (∀ t : TimeState, (inside t 0xEF true true).run = .running ∧ (inside t 0xEF true true).t = t) :=
  fun _ => ⟨rfl, rfl⟩

theorem witness_DataInstructionsInTimeSteps :
    (∀ t ∈ [TimeState.t3, .t4, .t5, .t6, .t7], InTimeState (inside t 0x1F true true) t .sta ∧
      InTimeState (inside t 0x2F true true) t .lda ∧ InTimeState (inside t 0x3F true true) t .add ∧
      InTimeState (inside t 0x4F true true) t .or ∧ InTimeState (inside t 0x5F true true) t .and) ∧
    0x6C = BitVec.ofNat 8 (((inside .t7 0x3F true true).ac.toNat + (inside .t7 0x3F true true).rdm.toNat) % 256) ∧
    readyToFetch (top 0x1F 0xFF true true) = true ∧ opcodeAt (top 0x1F 0xFF true true) ∈ [.sta, .lda, .add, .or, .and] :=
  ⟨fun _ _ => ⟨inTimeState_intro (by decide), inTimeState_intro (by decide), inTimeState_intro (by decide),
    inTimeState_intro (by decide), inTimeState_intro (by decide)⟩, by decide, rfl, by decide⟩

theorem witness_TakenJumpsInTimeSteps :
    (∀ t ∈ [TimeState.t3, .t4, .t5], InTimeState (inside t 0x8F false false) t .jmp ∧
      (InTimeState (inside t 0x9F true false) t .jn ∧ (inside t 0x9F true false).n = true) ∧
      (InTimeState (inside t 0xAF false true) t .jz ∧ (inside t 0xAF false true).z = true)) ∧
    readyToFetch (top 0xA0 0xFF false true) = true ∧ opcodeAt (top 0xA0 0xFF false true) = .jz ∧
    (top 0xA0 0xFF false true).z = true :=
  ⟨fun _ _ => ⟨inTimeState_intro (by decide), ⟨inTimeState_intro (by decide), rfl⟩,
    inTimeState_intro (by decide), rfl⟩, rfl, rfl, rfl⟩

theorem witness_OneStepExecutions : InTimeState (inside .t3 0x0F true true) .t3 .nop ∧
    InTimeState (inside .t3 0x6F true true) .t3 .not ∧
    (InTimeState (inside .t3 0x9F false true) .t3 .jn ∧ (inside .t3 0x9F false true).n = false) ∧
    (InTimeState (inside .t3 0xAF true false) .t3 .jz ∧ (inside .t3 0xAF true false).z = false) ∧
    InTimeState (inside .t3 0xFF true true) .t3 .hlt ∧ Fetches (top 0xFF 0xFF true true) .hlt 0xFF 0xFF ∧
    Fetches (top 0x90 0xFF false true) .jn 0xFF 0xFF :=
  ⟨⟨rfl, rfl, rfl⟩, ⟨rfl, rfl, rfl⟩, ⟨⟨rfl, rfl, rfl⟩, rfl⟩, ⟨⟨rfl, rfl, rfl⟩, rfl⟩, ⟨rfl, rfl, rfl⟩,
    fetches_intro rfl rfl rfl rfl, fetches_intro rfl rfl rfl rfl⟩

theorem witness_ReservedCodeUnderTheEquations : Opcode.reserved1110.isReserved = true ∧ TimeState.t3.isFetch = false ∧
    TimeState.t7.isFetch = false ∧ InTimeState (inside .t3 0xE0 true true) .t3 .reserved1110 :=
  ⟨rfl, rfl, rfl, rfl, rfl, rfl⟩

theorem witness_TimeStatesOfEachInstruction : Fetches (top 0x1F 0xFF true true) .sta 0xFF 0xFF ∧
    Fetches (top 0x2F 0xFF true true) .lda 0xFF 0xFF ∧ Fetches (top 0xF0 0xFF true true) .hlt 0xFF 0xFF ∧
    Fetches (top 0x9F 0xFF true true) .jn 0xFF 0xFF ∧ (top 0x9F 0xFF true true).n = true ∧
    Fetches (top 0xAF 0xFF true false) .jz 0xFF 0xFF ∧ (top 0xAF 0xFF true false).z = false :=
  ⟨fetches_intro rfl rfl rfl rfl, fetches_intro rfl rfl rfl rfl, fetches_intro rfl rfl rfl rfl, fetches_intro rfl rfl rfl rfl,
    rfl, fetches_intro rfl rfl rfl rfl, rfl⟩

theorem witness_HiddenRegistersAfterEachInstruction : StepsFrom (top 0xF0 0xFF true true) .hlt ∧
    (StepsFrom (top 0x9F 0xFF false true) .jn ∧ (top 0x9F 0xFF false true).n = false) ∧
    StepsFrom (top 0x1F 0xFF true true) .sta ∧ StepsFrom (top 0x5F 0xFF true true) .and ∧
    (StepsFrom (top 0xAF 0xFF true true) .jz ∧ (top 0xAF 0xFF true true).z = true) :=
  ⟨⟨rfl, rfl, _, rfl⟩, ⟨⟨rfl, rfl, _, rfl⟩, rfl⟩, ⟨rfl, rfl, _, rfl⟩, ⟨rfl, rfl, _, rfl⟩, ⟨rfl, rfl, _, rfl⟩, rfl⟩

theorem witness_HiddenRegistersCannotBeObserved : readyToFetch (top 0x1F 0xFF true true) = true ∧
    SameButHidden (top 0x1F 0xFF true true) { top 0x1F 0xFF true true with ri := 0x01, rem := 0x02, rdm := 0x03 } ∧
    (top 0x1F 0xFF true true).rdm ≠ 0x03 := ⟨rfl, rfl, by decide⟩

end Sys2Proof.Tests
end

section
/-! What an instruction does to memory: the decoding of an instruction with an address byte, the memory after an execution
phase, the memory after a step, and from them the rule of R24. -/

namespace Sys2Proof

/-- The byte after a format F2 opcode byte is the operand, whole (R39, R45). -/
theorem decodeInstr_of_f2 {b : Byte} {mk : Byte → Instr} (e : Byte) (h : (decodeOpcode b).format = .f2 mk) :
    decodeInstr b e = mk e := by
  rw [decodeInstr, h]

end Sys2Proof

namespace Sys2Proof.Machine

theorem instructionAt_of_sta {s : State} (h : opcodeAt s = .sta) : instructionAt s = .sta (addressByteAt s) :=
  decodeInstr_of_f2 _ (congrArg Opcode.format h)

/-! ### Memory after the execution phase -/

theorem conditionalJump_mem (c : Bool) (e : Byte) (s : State) :
    (if c then jumpTo e s else stepOver s).mem = s.mem := by
  cases c <;> rfl

theorem exec_sta_mem {e : Byte} {s s' : State} (h : exec (.sta e) s = .next s') : s'.mem = s.mem.write e s.ac := by
  injection h with h
  subst h
  rfl

theorem exec_mem_of_ne_sta {i : Instr} {s s' : State} (hi : i.opcode ≠ .sta) (h : exec i s = .next s') :
    s'.mem = s.mem := by
  cases i with
  | sta e => exact absurd rfl hi
  | jn e => injection h with h; subst h; exact conditionalJump_mem s.n e s
  | jz e => injection h with h; subst h; exact conditionalJump_mem s.z e s
  | _ => injection h with h; subst h; rfl

/-! ### Memory after a step -/

section
variable {s s' : State} (hr : readyToFetch s = true) (h : step s = .next s')
include hr h

theorem step_mem_of_sta (ho : opcodeAt s = .sta) : s'.mem = s.mem.write (addressByteAt s) s.ac := by
  rw [step_ready hr, instructionAt_of_sta ho] at h
  simpa using exec_sta_mem h

theorem step_mem_of_ne_sta (ho : opcodeAt s ≠ .sta) : s'.mem = s.mem := by
  rw [step_ready hr] at h
  simpa using exec_mem_of_ne_sta ((opcode_instructionAt s).trans_ne ho) h

theorem step_sta_stores_ac (ho : opcodeAt s = .sta) : s'.mem.read (addressByteAt s) = s.ac := by
  rw [step_mem_of_sta hr h ho, Memory.read_write_same]

/-- A cell that a step changes is the one that a STA addresses. -/
theorem changed_cell_is_addressed_by_sta {a : Byte} (ha : s'.mem.read a ≠ s.mem.read a) :
    opcodeAt s = .sta ∧ a = addressByteAt s := by
  have ho : opcodeAt s = .sta := by
    by_contra ho
    exact ha (congrArg (Memory.read · a) (step_mem_of_ne_sta hr h ho))
  refine ⟨ho, ?_⟩
  by_contra hne
  rw [step_mem_of_sta hr h ho] at ha
  exact ha (Memory.read_write_other s.mem s.ac hne)

end

/-- Settles O26: the write law is read-after-write; a step leaves memory as it was, or, for STA, writes AC at the address
byte. -/
theorem onlyStaWritesMemory : Obligations.OnlyStaWritesMemory := by
  refine ⟨fun a v s => ⟨Memory.read_write_same s.mem a v, fun b hb => Memory.read_write_other s.mem v hb⟩,
    fun s s' hr h => ⟨step_sta_stores_ac hr h, fun a ha => ?_⟩⟩
  obtain ⟨ho, rfl⟩ := changed_cell_is_addressed_by_sta hr h ha
  exact ⟨ho, rfl, step_sta_stores_ac hr h ho⟩

end Sys2Proof.Machine
end

section
/-! One time step: which signals are active, what a transfer under a list of signals does, and from them the fetch phase in
time steps. A time step is read off the list of its active signals, so that no proof goes through the equations twice. -/

namespace Sys2Proof.Machine

/-! ### The active signals -/

theorem takesJump_iff {op : Opcode} {n z : Bool} :
    takesJump op n z = true ↔ op = .jmp ∨ op = .jn ∧ n = true ∨ op = .jz ∧ z = true := by
  simp [takesJump, or_assoc]

theorem skipsJump_iff {op : Opcode} {n z : Bool} :
    skipsJump op n z = true ↔ op = .jn ∧ n = false ∨ op = .jz ∧ z = false := by
  simp [skipsJump]

theorem activeSignals_t0 (op : Opcode) (n z : Bool) : activeSignals .t0 op n z = [.cargaREM] := rfl

theorem activeSignals_t1 (op : Opcode) (n z : Bool) : activeSignals .t1 op n z = [.read, .incrementaPC] := rfl

theorem activeSignals_t2 (op : Opcode) (n z : Bool) : activeSignals .t2 op n z = [.cargaRI] := rfl

/-- The operand fetch (R96 to R100), the same for the five instructions with a data operand. -/
theorem activeSignals_data : ∀ op ∈ [Opcode.sta, .lda, .add, .or, .and], ∀ n z : Bool,
    activeSignals .t3 op n z = [.cargaREM] ∧ activeSignals .t4 op n z = [.read, .incrementaPC] ∧
      activeSignals .t5 op n z = [.cargaREM, .sel] := by decide

theorem activeSignals_load : ∀ op ∈ [Opcode.lda, .add, .or, .and], ∀ n z : Bool,
    activeSignals .t6 op n z = [.read] := by decide

/-- The execution of a taken jump (R102, R103, R105). -/
theorem activeSignals_takenJump {op : Opcode} {n z : Bool} (h : takesJump op n z = true) :
    activeSignals .t3 op n z = [.cargaREM] ∧ activeSignals .t4 op n z = [.read] ∧
      activeSignals .t5 op n z = [.cargaPC, .gotoT0] := by
  obtain rfl | ⟨rfl, rfl⟩ | ⟨rfl, rfl⟩ := takesJump_iff.mp h <;> exact ⟨rfl, rfl, rfl⟩

theorem activeSignals_skippedJump {op : Opcode} {n z : Bool} (h : skipsJump op n z = true) :
    activeSignals .t3 op n z = [.incrementaPC, .gotoT0] := by
  obtain ⟨rfl, rfl⟩ | ⟨rfl, rfl⟩ := skipsJump_iff.mp h <;> rfl

/-- No signal is active for a reserved code after the fetch phase (R137): every term of an equation that is left has a
decoder line as a factor. -/
theorem equation_reserved {t : TimeState} {op : Opcode} (n z : Bool) (sig : Signal) (ho : op.isReserved = true)
    (ht : t.isFetch = false) : equation t op n z sig = false := by
  unfold equation
  split <;> grind [hasDataOperand, loadsFromMemory, takesJump, skipsJump, Opcode.isReserved, TimeState.isFetch]

theorem activeSignals_reserved {t : TimeState} {op : Opcode} (n z : Bool) (ho : op.isReserved = true)
    (ht : t.isFetch = false) : activeSignals t op n z = [] :=
  List.filter_eq_nil_iff.mpr fun sig _ => by simp [equation_reserved n z sig ho ht]

theorem Signal.mem_all (sig : Signal) : sig ∈ Signal.all := by
  cases sig with
  | ual op => cases op <;> decide
  | _ => decide

/-- The list of active signals says what each equation is. -/
theorem equation_of_activeSignals {t : TimeState} {op : Opcode} {n z : Bool} {L : List Signal}
    (h : activeSignals t op n z = L) : equation t op n z = L.contains := by
  subst h
  funext sig
  rw [Bool.eq_iff_iff, List.contains_iff_mem, activeSignals, List.mem_filter]
  simp [Signal.mem_all]

/-! ### A time step -/

/-- The memory access of a time step under given signals (R90, R91). -/
def accessUnder (sig : Signal → Bool) (s : State) : Option Access :=
  if sig .read then some (.read s.rem (s.mem.read s.rem))
  else if sig .write then some (.write s.rem s.rdm)
  else none

section
variable {s : State} {t : TimeState} {op : Opcode} {L : List Signal} (hs : InTimeState s t op)
include hs

theorem timeStepAccess_of_signals (hL : activeSignals t op s.n s.z = L) :
    timeStepAccess s = accessUnder L.contains s := by
  obtain ⟨-, rfl, rfl⟩ := hs
  rw [← equation_of_activeSignals hL]
  rfl

/-- That some signal is active already says that RI holds no reserved code, or that the fetch phase is not over (R137). -/
theorem microStep_of_signals {x : Signal} (hL : activeSignals t op s.n s.z = x :: L) :
    microStep s = transfer (x :: L).contains s := by
  obtain ⟨hr, rfl, rfl⟩ := hs
  rw [← equation_of_activeSignals hL]
  cases ht : s.t.isFetch with
  | true => exact microStep_fetch hr ht
  | false =>
    cases ho : (decodeOpcode s.ri).isReserved with
    | true => cases (activeSignals_reserved s.n s.z ho ht).symm.trans hL
    | false => exact microStep_transfer hr rfl ho

theorem microStep_reserved (ho : op.isReserved = true) (ht : t.isFetch = false) :
    microStep s = .next (raiseReserved s) := by
  obtain ⟨hr, rfl, rfl⟩ := hs
  simp [microStep_running hr, sequencedStep, ho, ht]

end

/-- A transfer, from what each destination takes (R113). -/
theorem transfer_eq {sig : Signal → Bool} {s : State} {rdm pc ac : Byte} {mem : Memory} {n z : Bool} {t : TimeState}
    (hrdm : nextRDM sig s = some rdm) (hmem : nextMem sig s = some mem) (hpc : nextPC sig s = some pc)
    (hacc : nextAcc sig s = some (ac, n, z)) (ht : nextTime sig s = some t) :
    transfer sig s = .next { ac := ac, pc := pc, n := n, z := z, mem := mem, run := if sig .halt then .halted else s.run,
                             ri := nextRI sig s, rem := nextREM sig s, rdm := rdm, t := t } := by
  simp [transfer, hrdm, hmem, hpc, hacc, ht]

/-! ### The transfer of each cell of Tabela 10.3 and Tabela 10.4 (R112) -/

section
variable (s : State) {t : TimeState}

theorem transfer_cargaREM (h : s.t.succ = some t) :
    transfer [Signal.cargaREM].contains s = .next { s with rem := s.pc, t := t } :=
  transfer_eq rfl rfl rfl rfl h

theorem transfer_cargaREM_sel (h : s.t.succ = some t) :
    transfer [Signal.cargaREM, .sel].contains s = .next { s with rem := s.rdm, t := t } :=
  transfer_eq rfl rfl rfl rfl h

theorem transfer_read_incrementaPC (h : s.t.succ = some t) :
    transfer [Signal.read, .incrementaPC].contains s =
      .next { s with rdm := s.mem.read s.rem, pc := s.pc + 1, t := t } :=
  transfer_eq rfl rfl rfl rfl h

theorem transfer_read (h : s.t.succ = some t) :
    transfer [Signal.read].contains s = .next { s with rdm := s.mem.read s.rem, t := t } :=
  transfer_eq rfl rfl rfl rfl h

theorem transfer_cargaRI (h : s.t.succ = some t) :
    transfer [Signal.cargaRI].contains s = .next { s with ri := s.rdm, t := t } :=
  transfer_eq rfl rfl rfl rfl h

theorem transfer_cargaRDM (h : s.t.succ = some t) :
    transfer [Signal.cargaRDM].contains s = .next { s with rdm := s.ac, t := t } :=
  transfer_eq rfl rfl rfl rfl h

theorem transfer_write_gotoT0 :
    transfer [Signal.write, .gotoT0].contains s = .next { s with mem := s.mem.write s.rem s.rdm, t := .t0 } :=
  transfer_eq rfl rfl rfl rfl rfl

theorem transfer_ual_gotoT0 (u : UalOp) :
    transfer [Signal.ual u, .cargaAC, .cargaNZ, .gotoT0].contains s = .next (endInstruction (loadACThroughUal u s)) := by
  cases u <;> exact transfer_eq rfl rfl rfl rfl rfl

theorem transfer_cargaPC_gotoT0 :
    transfer [Signal.cargaPC, .gotoT0].contains s = .next { s with pc := s.rdm, t := .t0 } :=
  transfer_eq rfl rfl rfl rfl rfl

theorem transfer_incrementaPC_gotoT0 :
    transfer [Signal.incrementaPC, .gotoT0].contains s = .next (endInstruction (stepOver s)) :=
  transfer_eq rfl rfl rfl rfl rfl

theorem transfer_gotoT0 : transfer [Signal.gotoT0].contains s = .next (endInstruction s) :=
  transfer_eq rfl rfl rfl rfl rfl

theorem transfer_halt : transfer [Signal.halt].contains s = .next (halt s) :=
  transfer_eq rfl rfl rfl rfl rfl

end

/-! ### The fetch phase in time steps -/

section
variable {s : State} (hr : s.run = .running)
include hr

theorem microStep_t0 (ht : s.t = .t0) : microStep s = .next { s with rem := s.pc, t := .t1 } :=
  (microStep_of_signals ⟨hr, ht, rfl⟩ (activeSignals_t0 ..)).trans (transfer_cargaREM s (ht ▸ rfl))

theorem microStep_t1 (ht : s.t = .t1) :
    microStep s = .next { s with rdm := s.mem.read s.rem, pc := s.pc + 1, t := .t2 } :=
  (microStep_of_signals ⟨hr, ht, rfl⟩ (activeSignals_t1 ..)).trans (transfer_read_incrementaPC s (ht ▸ rfl))

theorem microStep_t2 (ht : s.t = .t2) : microStep s = .next { s with ri := s.rdm, t := .t3 } :=
  (microStep_of_signals ⟨hr, ht, rfl⟩ (activeSignals_t2 ..)).trans (transfer_cargaRI s (ht ▸ rfl))

end

/-- Settles O50: each of t0, t1, t2 is the transfer of its signals, which no decoder line enters. -/
theorem fetchPhaseInTimeSteps : Obligations.FetchPhaseInTimeSteps :=
  ⟨fun op n z => ⟨activeSignals_t0 op n z, activeSignals_t1 op n z, activeSignals_t2 op n z⟩,
    fun _ hr ht => microStep_t0 hr ht, fun _ hr ht => microStep_t1 hr ht, fun _ hr ht => microStep_t2 hr ht, fun _ => rfl⟩

end Sys2Proof.Machine
end

section
/-! The time steps of a whole instruction, class by class: how many they are, the accesses they make, and the state they end
in, written with the operations that the execution phases of the instruction level use. -/

namespace Sys2Proof.Machine

/-! ### Time steps to the end of an instruction -/

/-- The rest of the instruction takes `n` time steps from `s`, makes the accesses `acc` in order, and ends in `s'`, however
many time steps more are allowed. -/
structure Completes (n : Nat) (acc : List Access) (s s' : State) : Prop where
  run : ∀ k, microRun (k + n) s = .next s'
  length : ∀ k, (microTrace (k + n) s).length = n
  trace : ∀ k, (microTrace (k + n) s).filterMap timeStepAccess = acc

namespace Completes
variable {n : Nat} {acc : List Access} {s s1 s' : State}

theorem last (h : microStep s = .next s') (he : instructionEnded s' = true) :
    Completes 1 (timeStepAccess s).toList s s' where
  run _ := microRun_end h he
  length _ := by rw [microTrace_end h he]; rfl
  trace _ := by rw [microTrace_end h he]; cases ha : timeStepAccess s <;> simp [ha]

theorem cons (h : microStep s = .next s1) (he : instructionEnded s1 = false) (hc : Completes n acc s1 s') :
    Completes (n + 1) ((timeStepAccess s).toList ++ acc) s s' where
  run k := (microRun_go h he).trans (hc.run k)
  length k := by rw [← Nat.add_assoc, microTrace_go h he, List.length_cons, hc.length]
  trace k := by
    rw [← Nat.add_assoc, microTrace_go h he, ← hc.trace k]
    cases ha : timeStepAccess s <;> simp [ha]

theorem runInstruction_eq (hc : Completes n acc s s') (hn : n ≤ timeStateCount) : runInstruction s = .next s' := by
  rw [runInstruction, ← Nat.sub_add_cancel hn, hc.run]

theorem timeStates_eq (hc : Completes n acc s s') (hn : n ≤ timeStateCount) : timeStates s = n := by
  rw [timeStates, ← Nat.sub_add_cancel hn, hc.length]

theorem accesses_eq (hc : Completes n acc s s') (hn : n ≤ timeStateCount) : accesses s = acc := by
  rw [accesses, ← Nat.sub_add_cancel hn, hc.trace]

end Completes

/-! ### One time step under its signals -/

section
variable {n : Nat} {acc : List Access} {s s1 s' : State} {t : TimeState} {op : Opcode} {x : Signal} {L : List Signal}
  (hs : InTimeState s t op) (hL : activeSignals t op s.n s.z = x :: L)
include hs hL

theorem completes_last (h : transfer (x :: L).contains s = .next s') (he : instructionEnded s' = true) :
    Completes 1 (accessUnder (x :: L).contains s).toList s s' := by
  rw [← timeStepAccess_of_signals hs hL]
  exact .last ((microStep_of_signals hs hL).trans h) he

theorem completes_cons {t' : TimeState} {op' : Opcode} (h : transfer (x :: L).contains s = .next s1)
    (h1 : InTimeState s1 t' op') (ht : t' ≠ .t0) (hc : InTimeState s1 t' op' → Completes n acc s1 s') :
    Completes (n + 1) ((accessUnder (x :: L).contains s).toList ++ acc) s s' := by
  have hgo : instructionEnded s1 = false := by
    obtain ⟨hr, rfl, -⟩ := h1
    simp [instructionEnded, hr, ht]
  rw [← timeStepAccess_of_signals hs hL]
  exact .cons ((microStep_of_signals hs hL).trans h) hgo (hc h1)

end

/-! ### The fetch phase, then the execution phase of each class of instructions -/

theorem inTimeState_fetchPhase {s : State} (h : readyToFetch s = true) : InTimeState (fetchPhase s) .t3 (opcodeAt s) :=
  ⟨(readyToFetch_iff.mp h).1, rfl, rfl⟩

theorem completes_fetch {n : Nat} {acc : List Access} {s s' : State} (h : readyToFetch s = true)
    (hc : Completes n acc (fetchPhase s) s') : Completes (n + 3) (.read s.pc (opcodeByteAt s) :: acc) s s' := by
  obtain ⟨hr, ht⟩ := readyToFetch_iff.mp h
  refine completes_cons ⟨hr, ht, rfl⟩ (activeSignals_t0 ..) (transfer_cargaREM s (congrArg TimeState.succ ht))
    ⟨hr, rfl, rfl⟩ nofun fun h1 => ?_
  refine completes_cons h1 (activeSignals_t1 ..) (transfer_read_incrementaPC _ rfl) ⟨hr, rfl, rfl⟩ nofun fun h2 => ?_
  exact completes_cons h2 (activeSignals_t2 ..) (transfer_cargaRI _ rfl) ⟨hr, rfl, rfl⟩ nofun fun _ => hc

section
variable {s : State} {op : Opcode} (hs : InTimeState s .t3 op)
include hs

/-- The operand fetch is t3 to t5; after it REM holds the address byte, ready for the data access. -/
theorem completes_operandFetch {n : Nat} {acc : List Access} {s' : State} (ho : op ∈ [.sta, .lda, .add, .or, .and])
    (hc : ∀ s1 : State, s1 = { operandFetch (s.mem.read s.pc) s with rem := s.mem.read s.pc, t := .t6 } →
      InTimeState s1 .t6 op → Completes n acc s1 s') :
    Completes (n + 3) (.read s.pc (s.mem.read s.pc) :: acc) s s' := by
  obtain ⟨h3, h4, h5⟩ := activeSignals_data op ho s.n s.z
  have ⟨hr, ht, hd⟩ := hs
  refine completes_cons hs h3 (transfer_cargaREM s (congrArg TimeState.succ ht)) ⟨hr, rfl, hd⟩ nofun fun h1 => ?_
  refine completes_cons h1 h4 (transfer_read_incrementaPC _ rfl) ⟨hr, rfl, hd⟩ nofun fun h2 => ?_
  exact completes_cons h2 h5 (transfer_cargaREM_sel _ rfl) ⟨hr, rfl, hd⟩ nofun (hc _ rfl)

theorem completes_store (ho : op = .sta) :
    Completes 5 [.read s.pc (s.mem.read s.pc), .write (s.mem.read s.pc) s.ac] s
      (endInstruction (writeCell (s.mem.read s.pc) s.ac (operandFetch (s.mem.read s.pc) s))) := by
  subst ho
  have ⟨hr, _, hd⟩ := hs
  refine completes_operandFetch hs (by decide) ?_
  rintro _ rfl h6
  refine completes_cons h6 rfl (transfer_cargaRDM _ rfl) ⟨hr, rfl, hd⟩ nofun fun h7 => ?_
  exact completes_last h7 rfl (transfer_write_gotoT0 _) (by simp [instructionEnded])

theorem completes_load {u : UalOp} (ho : op ∈ [.lda, .add, .or, .and])
    (h7 : activeSignals .t7 op s.n s.z = [.ual u, .cargaAC, .cargaNZ, .gotoT0]) :
    Completes 5 [.read s.pc (s.mem.read s.pc), .read (s.mem.read s.pc) (s.mem.read (s.mem.read s.pc))] s
      (endInstruction (loadACThroughUal u (fetchDirect (s.mem.read s.pc) s))) := by
  have ⟨hr, _, hd⟩ := hs
  refine completes_operandFetch hs (.tail _ ho) ?_
  rintro _ rfl h6
  refine completes_cons h6 (activeSignals_load op ho _ _) (transfer_read _ rfl) ⟨hr, rfl, hd⟩ nofun fun hs7 => ?_
  exact completes_last hs7 h7 (transfer_ual_gotoT0 _ u) (by simp [instructionEnded])

theorem completes_takenJump (hj : takesJump op s.n s.z = true) :
    Completes 3 [.read s.pc (s.mem.read s.pc)] s (endInstruction (jumpTo (s.mem.read s.pc) s)) := by
  obtain ⟨h3, h4, h5⟩ := activeSignals_takenJump hj
  have ⟨hr, ht, hd⟩ := hs
  refine completes_cons hs h3 (transfer_cargaREM s (congrArg TimeState.succ ht)) ⟨hr, rfl, hd⟩ nofun fun hs4 => ?_
  refine completes_cons hs4 h4 (transfer_read _ rfl) ⟨hr, rfl, hd⟩ nofun fun hs5 => ?_
  exact completes_last hs5 h5 (transfer_cargaPC_gotoT0 _) (by simp [instructionEnded])

theorem completes_skippedJump (hj : skipsJump op s.n s.z = true) : Completes 1 [] s (endInstruction (stepOver s)) :=
  completes_last hs (activeSignals_skippedJump hj) (transfer_incrementaPC_gotoT0 s) (by simp [instructionEnded])

theorem completes_nop (ho : op = .nop) : Completes 1 [] s (endInstruction s) :=
  completes_last hs (by rw [ho]; rfl) (transfer_gotoT0 s) (by simp [instructionEnded])

theorem completes_not (ho : op = .not) : Completes 1 [] s (endInstruction (loadACThroughUal .not s)) :=
  completes_last hs (by rw [ho]; rfl) (transfer_ual_gotoT0 s .not) (by simp [instructionEnded])

theorem completes_hlt (ho : op = .hlt) : Completes 1 [] s (halt s) :=
  completes_last hs (by rw [ho]; rfl) (transfer_halt s) rfl

theorem completes_reserved (ho : op.isReserved = true) : Completes 1 [] s (raiseReserved s) := by
  have hacc := timeStepAccess_of_signals hs (activeSignals_reserved s.n s.z ho rfl)
  have hlast := Completes.last (microStep_reserved hs ho rfl) rfl
  rwa [hacc] at hlast

end

end Sys2Proof.Machine
end

section
/-! A step against the pseudocode of R52, class by class: the execution phase of the instruction at PC, its time steps and
the arm of the pseudocode agree on the state at the end and on the accesses. -/

namespace Sys2Proof

/-- An instruction of format F1 has no operand (R38). -/
theorem decodeInstr_of_f1 {b : Byte} {i : Instr} (e : Byte) (h : (decodeOpcode b).format = .f1 i) :
    decodeInstr b e = i := by
  rw [decodeInstr, h]

end Sys2Proof

namespace Sys2Proof.Machine

section
variable {s : State} {op : Opcode} (ho : opcodeAt s = op)
include ho

theorem instructionAt_of_f1 {i : Instr} (hf : op.format = .f1 i) : instructionAt s = i :=
  decodeInstr_of_f1 _ ((congrArg Opcode.format ho).trans hf)

theorem instructionAt_of_f2 {mk : Byte → Instr} (hf : op.format = .f2 mk) : instructionAt s = mk (addressByteAt s) :=
  decodeInstr_of_f2 _ ((congrArg Opcode.format ho).trans hf)

/-- The case of the pseudocode is on `ri[7:4]`, the code that the decoder reads (R45). -/
theorem archCode_eq : (s.arch.mem s.arch.pc >>> 4).toNat = op.code.toNat := by
  change (opcodeByteAt s >>> 4).toNat = op.code.toNat
  rw [← (decodeOpcode_eq_iff _ op).mp ho, opcodeField, BitVec.toNat_ushiftRight, BitVec.extractLsb'_toNat,
    Nat.shiftRight_eq_div_pow]
  exact (Nat.mod_eq_of_lt (by omega)).symm

end

/-! ### What the execution phases leave, at the instruction level -/

theorem ual_add_eq_ofNat (x y : Byte) : ual .add x y = BitVec.ofNat 8 ((x.toNat + y.toNat) % 256) := by
  apply BitVec.eq_of_toNat_eq
  simp

theorem arch_store (e v : Byte) (s : State) :
    (endInstruction (writeCell e v (operandFetch e (fetchPhase s)))).arch =
      { s.arch with pc := s.pc + 1 + 1, mem := fun x => if x = e then v else s.mem.read x } := by
  have hmem : (s.mem.write e v).read = fun x => if x = e then v else s.mem.read x :=
    funext fun x => Memory.read_write s.mem e x v
  simp [State.arch, hmem]

theorem archLoad_eq (u : UalOp) (e : Byte) (s : State) :
    archLoad s.arch s.pc (opcodeByteAt s) e (ual u s.ac (s.mem.read e)) =
      { after := (endInstruction (loadACThroughUal u (fetchDirect e (fetchPhase s)))).arch
        accesses := [.read s.pc (opcodeByteAt s), .read (s.pc + 1) e, .read e (s.mem.read e)] } := by
  simp [archLoad, State.arch, flagN_eq, flagZ_eq]

theorem arch_not (s : State) :
    (endInstruction (loadACThroughUal .not (fetchPhase s))).arch =
      { s.arch with pc := s.pc + 1, ac := ~~~s.ac, n := (~~~s.ac).getLsbD 7, z := decide (~~~s.ac = 0) } := by
  simp [State.arch, flagN_eq, flagZ_eq]

/-! ### A step follows the pseudocode, class by class -/

/-- A step does what the pseudocode does, and its time steps, at most eight, make the accesses that the pseudocode writes. -/
def StepFollows (s : State) : Prop :=
  ∃ n s', n ≤ timeStateCount ∧ step s = .next s' ∧ s'.arch = (archStep s.arch).after ∧
    Completes n (archStep s.arch).accesses s s'

section
variable {s : State} (h : readyToFetch s = true)
include h

/-- The execution phase of the instruction at PC, its time steps and the pseudocode agree on where it ends. -/
theorem stepFollows_of {n : Nat} {acc : List Access} {i : Instr} {s' : State} (hn : n + 3 ≤ timeStateCount)
    (hi : instructionAt s = i) (hx : exec i (fetchPhase s) = .next s') (hc : Completes n acc (fetchPhase s) s')
    (ha : archStep s.arch = { after := s'.arch, accesses := .read s.pc (opcodeByteAt s) :: acc }) : StepFollows s := by
  refine ⟨n + 3, s', hn, ?_, ?_, ?_⟩
  · rw [step_ready h, hi, hx]
  · rw [ha]
  · rw [ha]
    exact completes_fetch h hc

/-- The instructions whose execution phase is one time step without an access. -/
theorem stepFollows_f1 {op : Opcode} {i : Instr} {s' : State} (ho : opcodeAt s = op) (hf : op.format = .f1 i)
    (hx : exec i (fetchPhase s) = .next s') (hc : Completes 1 [] (fetchPhase s) s')
    (ha : archStep s.arch = { after := s'.arch, accesses := [.read s.pc (opcodeByteAt s)] }) : StepFollows s :=
  stepFollows_of h (by decide) (instructionAt_of_f1 ho hf) hx hc ha

theorem stepFollows_sta (ho : opcodeAt s = .sta) : StepFollows s := by
  refine stepFollows_of h (by decide) (instructionAt_of_sta ho) rfl (completes_store (inTimeState_fetchPhase h) ho) ?_
  simp only [archStep, archCode_eq ho, effectiveAddress_eq, arch_store]
  rfl

/-- LDA, ADD, OR and AND differ in the operation of the UAL alone. -/
theorem stepFollows_load {op : Opcode} {mk : Byte → Instr} {u : UalOp} (ho : opcodeAt s = op)
    (hl : op ∈ [.lda, .add, .or, .and]) (hf : op.format = .f2 mk)
    (hx : ∀ e s, exec (mk e) s = .next (endInstruction (loadACThroughUal u (fetchDirect e s))))
    (h7 : ∀ n z, activeSignals .t7 op n z = [.ual u, .cargaAC, .cargaNZ, .gotoT0])
    (ha : archStep s.arch = archLoad s.arch s.pc (opcodeByteAt s) (addressByteAt s)
      (ual u s.ac (s.mem.read (addressByteAt s)))) : StepFollows s := by
  have hs : InTimeState (fetchPhase s) .t3 op := ho ▸ inTimeState_fetchPhase h
  exact stepFollows_of h (by decide) (instructionAt_of_f2 ho hf) (hx _ _) (completes_load hs hl (h7 _ _))
    (ha.trans (archLoad_eq u _ s))

/-- JMP, JN and JZ differ in the condition alone. -/
theorem stepFollows_jump {op : Opcode} {mk : Byte → Instr} {c : Bool} (ho : opcodeAt s = op) (hf : op.format = .f2 mk)
    (hx : ∀ e, exec (mk e) (fetchPhase s) =
      .next (endInstruction (if c then jumpTo e (fetchPhase s) else stepOver (fetchPhase s))))
    (htakes : takesJump op s.n s.z = c) (hskips : skipsJump op s.n s.z = !c)
    (ha : archStep s.arch = archJump s.arch s.pc (opcodeByteAt s) (addressByteAt s) c) : StepFollows s := by
  have hs : InTimeState (fetchPhase s) .t3 op := ho ▸ inTimeState_fetchPhase h
  have hi := instructionAt_of_f2 ho hf
  cases c with
  | true => exact stepFollows_of h (by decide) hi (hx _) (completes_takenJump hs htakes) ha
  | false => exact stepFollows_of h (by decide) hi (hx _) (completes_skippedJump hs hskips) ha

theorem stepFollows_reserved {op : Opcode} {i : Instr} (ho : opcodeAt s = op) (hr : op.isReserved = true)
    (hf : op.format = .f1 i) (hx : ∀ s, exec i s = .next (raiseReserved s))
    (ha : archStep s.arch = { after := (raiseReserved (fetchPhase s)).arch
                              accesses := [.read s.pc (opcodeByteAt s)] }) : StepFollows s := by
  have hs : InTimeState (fetchPhase s) .t3 op := ho ▸ inTimeState_fetchPhase h
  exact stepFollows_f1 h ho hf (hx _) (completes_reserved hs hr) ha

theorem stepFollows : StepFollows s := by
  have hs := inTimeState_fetchPhase h
  cases ho : opcodeAt s with
  | nop => exact stepFollows_f1 h ho rfl rfl (completes_nop hs ho) (by simp only [archStep, archCode_eq ho]; rfl)
  | sta => exact stepFollows_sta h ho
  | lda | or | and =>
    exact stepFollows_load h ho (by decide) rfl (fun _ _ => rfl) (fun _ _ => rfl)
      (by simp only [archStep, archCode_eq ho]; rfl)
  | add =>
    exact stepFollows_load h ho (by decide) rfl (fun _ _ => rfl) (fun _ _ => rfl)
      (by simp only [archStep, archCode_eq ho, ual_add_eq_ofNat]; rfl)
  | not =>
    exact stepFollows_f1 h ho rfl rfl (completes_not hs ho) (by simp only [archStep, archCode_eq ho, arch_not]; rfl)
  | jmp =>
    exact stepFollows_jump h (c := true) ho rfl (fun _ => rfl) rfl rfl (by simp only [archStep, archCode_eq ho]; rfl)
  | jn =>
    exact stepFollows_jump h (c := s.n) ho rfl (fun _ => rfl) (Bool.or_false _) (Bool.or_false _)
      (by simp only [archStep, archCode_eq ho]; rfl)
  | jz =>
    exact stepFollows_jump h (c := s.z) ho rfl (fun _ => rfl) rfl rfl
      (by simp only [archStep, archCode_eq ho]; rfl)
  | reserved0111 | reserved1011 | reserved1100 | reserved1101 | reserved1110 =>
    exact stepFollows_reserved h ho rfl rfl (fun _ => rfl) (by simp only [archStep, archCode_eq ho]; rfl)
  | hlt => exact stepFollows_f1 h ho rfl rfl (completes_hlt hs ho) (by simp only [archStep, archCode_eq ho]; rfl)

end

/-- Settles O7: each class of instructions follows its arm of the pseudocode, and only a running machine steps. -/
theorem stepFollowsThePseudocode : Obligations.StepFollowsThePseudocode := by
  refine ⟨fun s h => ?_, fun s s' h => running_of_step h⟩
  obtain ⟨n, s', hn, hstep, harch, hc⟩ := stepFollows h
  exact ⟨⟨s', hstep, harch⟩, hc.accesses_eq hn⟩

end Sys2Proof.Machine
end

section
/-! A whole instruction from a machine about to fetch, put together from its execution phase and its time steps; then STA, and
LDA as one of the four instructions that load AC through the UAL from a cell. -/

namespace Sys2Proof

/-- The canonical encoding of an instruction with an address byte (R39, R41). -/
theorem encode_eq_pair {i : Instr} (op : Opcode) {b e : Byte} (ho : i.opcode = op) (ha : i.addressBytes = [e])
    (hb : opcodeByte op.code 0 = b) : encode i = [b, e] := by
  rw [encode, encodeWith, ho, ha, hb]

end Sys2Proof

namespace Sys2Proof.Machine

/-! ### The execution phases, field by field -/

theorem exec_sta (e : Byte) (s : State) :
    exec (.sta e) s = .next { s with pc := s.pc + 1, mem := s.mem.write e s.ac, rem := e, rdm := s.ac, t := .t0 } := rfl

/-- What LDA, ADD, OR and AND leave: AC and both flags are of the one result (R14, R112). -/
theorem loadThroughUal_eq (u : UalOp) {e r : Byte} {s : State} (hr : ual u s.ac (s.mem.read e) = r) :
    endInstruction (loadACThroughUal u (fetchDirect e s)) =
      { s with pc := s.pc + 1, ac := r, n := r.getLsbD 7, z := decide (r = 0),
               rem := e, rdm := s.mem.read e, t := .t0 } := by
  subst hr
  rw [← flagN_eq, ← flagZ_eq]
  rfl

theorem exec_lda (e : Byte) (s : State) : exec (.lda e) s =
    .next { s with pc := s.pc + 1, ac := s.mem.read e, n := (s.mem.read e).getLsbD 7, z := decide (s.mem.read e = 0),
                   rem := e, rdm := s.mem.read e, t := .t0 } :=
  congrArg Host.Outcome.next (loadThroughUal_eq .y rfl)

/-! ### The whole instruction -/

/-- PC after the opcode byte and the address byte (R31, R39). -/
theorem fetchPhase_pc_add_one (s : State) : (fetchPhase s).pc + 1 = s.pc + 2 := BitVec.add_assoc s.pc 1 1

section
variable {s : State} (h : readyToFetch s = true)
include h

/-- The fetch phase adds three time states and the read of the opcode byte to an execution phase (R51, R155). -/
theorem wholeInstruction {n : Nat} {acc : List Access} {i : Instr} {s' : State} (hn : n + 3 ≤ timeStateCount)
    (hi : instructionAt s = i) (hx : exec i (fetchPhase s) = .next s') (hc : Completes n acc (fetchPhase s) s') :
    step s = .next s' ∧ timeStates s = n + 3 ∧ accesses s = .read s.pc (opcodeByteAt s) :: acc := by
  have hw := completes_fetch h hc
  exact ⟨by rw [step_ready h, hi, hx], hw.timeStates_eq hn, hw.accesses_eq hn⟩

theorem wholeInstruction_sta (ho : opcodeAt s = .sta) :
    step s = .next { s with pc := s.pc + 2, mem := s.mem.write (addressByteAt s) s.ac, ri := opcodeByteAt s,
                            rem := addressByteAt s, rdm := s.ac } ∧
    timeStates s = 8 ∧
    accesses s = [.read s.pc (opcodeByteAt s), .read (s.pc + 1) (addressByteAt s), .write (addressByteAt s) s.ac] := by
  obtain ⟨hstep, hrest⟩ := wholeInstruction h (by decide) (instructionAt_of_sta ho) (exec_sta _ _)
    (completes_store (inTimeState_fetchPhase h) ho)
  refine ⟨?_, hrest⟩
  rw [hstep, fetchPhase_pc_add_one, ← (readyToFetch_iff.mp h).2]
  rfl

/-- LDA, ADD, OR and AND differ in the operation of the UAL alone. -/
theorem wholeInstruction_load {op : Opcode} {mk : Byte → Instr} {u : UalOp} {r : Byte} (ho : opcodeAt s = op)
    (hl : op ∈ [.lda, .add, .or, .and]) (hf : op.format = .f2 mk)
    (hx : ∀ e s, exec (mk e) s = .next (endInstruction (loadACThroughUal u (fetchDirect e s))))
    (h7 : ∀ n z, activeSignals .t7 op n z = [.ual u, .cargaAC, .cargaNZ, .gotoT0])
    (hr : ual u s.ac (s.mem.read (addressByteAt s)) = r) :
    step s = .next { s with pc := s.pc + 2, ac := r, n := r.getLsbD 7, z := decide (r = 0), ri := opcodeByteAt s,
                            rem := addressByteAt s, rdm := s.mem.read (addressByteAt s) } ∧
    timeStates s = 8 ∧
    accesses s = [.read s.pc (opcodeByteAt s), .read (s.pc + 1) (addressByteAt s),
      .read (addressByteAt s) (s.mem.read (addressByteAt s))] := by
  obtain ⟨hstep, hrest⟩ := wholeInstruction h (by decide) (instructionAt_of_f2 ho hf) (hx _ _)
    (completes_load (ho ▸ inTimeState_fetchPhase h) hl (h7 _ _))
  refine ⟨?_, hrest⟩
  rw [hstep, loadThroughUal_eq u (s := fetchPhase s) hr, fetchPhase_pc_add_one, ← (readyToFetch_iff.mp h).2]
  rfl

end

/-- Settles O12: the execution phase is one memory write at the address byte, and its five time steps follow the fetch phase. -/
theorem staStoresTheAccumulator : Obligations.StaStoresTheAccumulator := by
  refine ⟨exec_sta, fun _ => encode_eq_pair .sta rfl rfl (by decide), fun s a e h ho ha he => ?_⟩
  subst ha he
  exact wholeInstruction_sta h ho

/-- Settles O13: LDA is the load whose UAL operation passes the cell through. -/
theorem ldaLoadsTheAccumulator : Obligations.LdaLoadsTheAccumulator := by
  refine ⟨exec_lda, fun _ => encode_eq_pair .lda rfl rfl (by decide), fun s a e v h ho ha he hv => ?_⟩
  subst ha he hv
  exact wholeInstruction_load h ho (by decide) rfl (fun _ _ => rfl) (fun _ _ => rfl) rfl

end Sys2Proof.Machine
end

section
/-! OR, AND and NOT (42_alu.md): the UAL result bit by bit, the flags in terms of the operands, and each instruction whole. -/

namespace Sys2Proof

/-! ### Facts about the words -/

theorem or_eq_of_getLsbD {x y r : Byte} (h : ∀ k < 8, r.getLsbD k = (x.getLsbD k || y.getLsbD k)) : x ||| y = r :=
  BitVec.eq_of_getLsbD_eq fun k hk => BitVec.getLsbD_or.trans (h k hk).symm

theorem and_eq_of_getLsbD {x y r : Byte} (h : ∀ k < 8, r.getLsbD k = (x.getLsbD k && y.getLsbD k)) : x &&& y = r :=
  BitVec.eq_of_getLsbD_eq fun k hk => BitVec.getLsbD_and.trans (h k hk).symm

theorem and_eq_zero_iff_no_common_bit {x y : Byte} :
    x &&& y = 0 ↔ ∀ k < 8, ¬(x.getLsbD k = true ∧ y.getLsbD k = true) := by
  simp [BitVec.eq_of_getLsbD_eq_iff]

/-- The one's complement as a subtraction from 0xFF (R69). -/
theorem ofNat_sub_eq_not (x : Byte) : BitVec.ofNat 8 (255 - x.toNat) = ~~~x := by
  apply BitVec.eq_of_toNat_eq
  rw [BitVec.toNat_ofNat, BitVec.toNat_not]
  omega

theorem getLsbD_not_of_lt (x : Byte) {k : Nat} (hk : k < 8) : (~~~x).getLsbD k = !x.getLsbD k := by
  simp [hk]

theorem not_eq_zero_iff {x : Byte} : ~~~x = 0 ↔ x = 0xFF := BitVec.not_eq_comm

/-- The one's complement is one less than the arithmetic negation (R69). -/
theorem toInt_not_eq (x : Byte) : (~~~x).toInt = -x.toInt - 1 := by
  have hx := x.isLt
  rw [BitVec.toInt_eq_toNat_cond, BitVec.toInt_eq_toNat_cond, BitVec.toNat_not]
  split <;> split <;> omega

end Sys2Proof

namespace Sys2Proof.Machine

/-! ### The execution phases -/

theorem exec_or {e r : Byte} {s : State} (hr : s.ac ||| s.mem.read e = r) : exec (.or e) s =
    .next { s with pc := s.pc + 1, ac := r, n := r.getLsbD 7, z := decide (r = 0),
                   rem := e, rdm := s.mem.read e, t := .t0 } :=
  congrArg Host.Outcome.next (loadThroughUal_eq .or hr)

theorem exec_and {e r : Byte} {s : State} (hr : s.ac &&& s.mem.read e = r) : exec (.and e) s =
    .next { s with pc := s.pc + 1, ac := r, n := r.getLsbD 7, z := decide (r = 0),
                   rem := e, rdm := s.mem.read e, t := .t0 } :=
  congrArg Host.Outcome.next (loadThroughUal_eq .and hr)

/-- NOT has no operand: AC and both flags change, and no register of a memory access (R69). -/
theorem complementThroughUal_eq (s : State) :
    endInstruction (loadACThroughUal .not s) =
      { s with ac := ~~~s.ac, n := (~~~s.ac).getLsbD 7, z := decide (~~~s.ac = 0), t := .t0 } := by
  rw [← flagN_eq, ← flagZ_eq]
  rfl

theorem exec_not (s : State) : exec .not s =
    .next { s with ac := ~~~s.ac, n := (~~~s.ac).getLsbD 7, z := decide (~~~s.ac = 0), t := .t0 } :=
  congrArg Host.Outcome.next (complementThroughUal_eq s)

/-! ### The flags in terms of the operands -/

theorem exec_or_flags {e : Byte} {s s' : State} (h : exec (.or e) s = .next s') :
    s'.n = (s.ac.getLsbD 7 || (s.mem.read e).getLsbD 7) ∧ (s'.z = true ↔ s.ac = 0x00 ∧ s.mem.read e = 0x00) := by
  rw [exec_or rfl] at h
  injection h with h
  subst h
  exact ⟨BitVec.getLsbD_or, decide_eq_true_iff.trans BitVec.or_eq_zero_iff⟩

theorem exec_and_flags {e : Byte} {s s' : State} (h : exec (.and e) s = .next s') :
    s'.n = (s.ac.getLsbD 7 && (s.mem.read e).getLsbD 7) ∧
    (s'.z = true ↔ ∀ k < 8, ¬(s.ac.getLsbD k = true ∧ (s.mem.read e).getLsbD k = true)) := by
  rw [exec_and rfl] at h
  injection h with h
  subst h
  exact ⟨BitVec.getLsbD_and, decide_eq_true_iff.trans and_eq_zero_iff_no_common_bit⟩

/-- The flags of a complement, read off the old AC (R69). -/
theorem exec_not_flags (s : State) : exec .not s =
    .next { s with ac := ~~~s.ac, n := !s.ac.getLsbD 7, z := decide (s.ac = 0xFF), t := .t0 } := by
  rw [exec_not, getLsbD_not_of_lt _ (by decide), decide_eq_decide.mpr not_eq_zero_iff]

theorem exec_not_twice {s s1 s2 : State} (h1 : exec .not s = .next s1) (h2 : exec .not s1 = .next s2) :
    s2.ac = s.ac ∧ s2.n = s.ac.getLsbD 7 ∧ s2.z = decide (s.ac = 0) := by
  rw [exec_not] at h1 h2
  injection h1 with h1
  injection h2 with h2
  subst h1 h2
  simp only [BitVec.not_not, and_self]

/-! ### The whole instruction -/

theorem wholeInstruction_not {s : State} (h : readyToFetch s = true) (ho : opcodeAt s = .not) :
    step s = .next { s with pc := s.pc + 1, ac := ~~~s.ac, n := (~~~s.ac).getLsbD 7, z := decide (~~~s.ac = 0),
                            ri := opcodeByteAt s, rem := s.pc, rdm := opcodeByteAt s } ∧
    timeStates s = 4 ∧ accesses s = [.read s.pc (opcodeByteAt s)] := by
  obtain ⟨hstep, hrest⟩ := wholeInstruction h (by decide) (instructionAt_of_f1 ho rfl) rfl
    (completes_not (inTimeState_fetchPhase h) ho)
  refine ⟨?_, hrest⟩
  rw [hstep, complementThroughUal_eq, ← (readyToFetch_iff.mp h).2]
  rfl

/-- Settles O15: OR is the load whose UAL operation is the bitwise or, which its eight bits determine. -/
theorem orTakesBitwiseOr : Obligations.OrTakesBitwiseOr := by
  refine ⟨fun e s r hr => exec_or (or_eq_of_getLsbD hr), fun e s t h => exec_or_flags h,
    fun _ => encode_eq_pair .or rfl rfl (by decide), fun s a e v r h ho ha he hv hr => ?_⟩
  subst ha he hv
  exact wholeInstruction_load h ho (by decide) rfl (fun _ _ => rfl) (fun _ _ => rfl) (or_eq_of_getLsbD hr)

/-- Settles O16: AND is the load whose UAL operation is the bitwise and, which its eight bits determine. -/
theorem andTakesBitwiseAnd : Obligations.AndTakesBitwiseAnd := by
  refine ⟨fun e s r hr => exec_and (and_eq_of_getLsbD hr), fun e s t h => exec_and_flags h,
    fun _ => encode_eq_pair .and rfl rfl (by decide), fun s a e v r h ho ha he hv hr => ?_⟩
  subst ha he hv
  exact wholeInstruction_load h ho (by decide) rfl (fun _ _ => rfl) (fun _ _ => rfl) (and_eq_of_getLsbD hr)

/-- Settles O17: 0xFF - AC is the complement, whose bits and signed reading say the rest. -/
theorem notComplements : Obligations.NotComplements := by
  refine ⟨fun s r hr => ?_, by decide, fun s s1 s2 h1 h2 => exec_not_twice h1 h2, fun s a r h ho ha hr => ?_⟩
  · rw [ofNat_sub_eq_not] at hr
    subst hr
    exact ⟨exec_not_flags s, fun k hk => getLsbD_not_of_lt s.ac hk, toInt_not_eq s.ac⟩
  · rw [ofNat_sub_eq_not] at hr
    subst ha hr
    exact wholeInstruction_not h ho

end Sys2Proof.Machine
end

section
/-! JMP, JN and JZ (43_jumps.md): what a taken and a skipped jump leave, and each of the two as a whole instruction. Which of
the two an instruction is, its opcode and the flip-flop it tests decide. -/

namespace Sys2Proof.Machine

/-! ### The execution phases -/

theorem exec_jmp (e : Byte) (s : State) : exec (.jmp e) s = .next { s with pc := e, rem := s.pc, rdm := e, t := .t0 } := rfl

section
variable (e : Byte) {s : State}

theorem exec_jn_taken (hn : s.n = true) : exec (.jn e) s = .next { s with pc := e, rem := s.pc, rdm := e, t := .t0 } :=
  congrArg (Host.Outcome.next ∘ endInstruction) (if_pos hn)

theorem exec_jn_skipped (hn : s.n = false) : exec (.jn e) s = .next { s with pc := s.pc + 1, t := .t0 } :=
  congrArg (Host.Outcome.next ∘ endInstruction) (if_neg (ne_true_of_eq_false hn))

theorem exec_jz_taken (hz : s.z = true) : exec (.jz e) s = .next { s with pc := e, rem := s.pc, rdm := e, t := .t0 } :=
  congrArg (Host.Outcome.next ∘ endInstruction) (if_pos hz)

theorem exec_jz_skipped (hz : s.z = false) : exec (.jz e) s = .next { s with pc := s.pc + 1, t := .t0 } :=
  congrArg (Host.Outcome.next ∘ endInstruction) (if_neg (ne_true_of_eq_false hz))

end

/-! ### The whole instruction -/

section
variable {s : State} {op : Opcode} {mk : Byte → Instr} (h : readyToFetch s = true) (ho : opcodeAt s = op)
  (hf : op.format = .f2 mk)
include h ho hf

theorem wholeInstruction_takenJump (hj : takesJump op s.n s.z = true)
    (hx : ∀ e, exec (mk e) (fetchPhase s) =
      .next { fetchPhase s with pc := e, rem := (fetchPhase s).pc, rdm := e, t := .t0 }) :
    step s = .next { s with pc := addressByteAt s, ri := opcodeByteAt s, rem := s.pc + 1, rdm := addressByteAt s } ∧
    timeStates s = 6 ∧ accesses s = [.read s.pc (opcodeByteAt s), .read (s.pc + 1) (addressByteAt s)] := by
  obtain ⟨hstep, hrest⟩ := wholeInstruction h (by decide) (instructionAt_of_f2 ho hf) (hx _)
    (completes_takenJump (ho ▸ inTimeState_fetchPhase h) hj)
  refine ⟨?_, hrest⟩
  rw [hstep, ← (readyToFetch_iff.mp h).2]
  rfl

/-- REM and RDM are those of the fetch phase: the address byte is not read (R75). -/
theorem wholeInstruction_skippedJump (hj : skipsJump op s.n s.z = true)
    (hx : ∀ e, exec (mk e) (fetchPhase s) = .next { fetchPhase s with pc := (fetchPhase s).pc + 1, t := .t0 }) :
    step s = .next { s with pc := s.pc + 2, ri := opcodeByteAt s, rem := s.pc, rdm := opcodeByteAt s } ∧
    timeStates s = 4 ∧ accesses s = [.read s.pc (opcodeByteAt s)] := by
  obtain ⟨hstep, hrest⟩ := wholeInstruction h (by decide) (instructionAt_of_f2 ho hf) (hx _)
    (completes_skippedJump (ho ▸ inTimeState_fetchPhase h) hj)
  refine ⟨?_, hrest⟩
  rw [hstep, fetchPhase_pc_add_one, ← (readyToFetch_iff.mp h).2]
  rfl

end

/-- Settles O18: JMP is the jump that is always taken. -/
theorem jmpJumps : Obligations.JmpJumps := by
  refine ⟨exec_jmp, fun _ => encode_eq_pair .jmp rfl rfl (by decide), fun s a e h ho ha he => ?_⟩
  subst ha he
  exact wholeInstruction_takenJump h ho rfl rfl (exec_jmp · _)

/-- Settles O19: JN is taken or skipped as N says. -/
theorem jnJumpsIfNegative : Obligations.JnJumpsIfNegative := by
  refine ⟨fun e _ => exec_jn_taken e, fun e _ => exec_jn_skipped e,
    fun _ => encode_eq_pair .jn rfl rfl (by decide), fun s a e h ho hn ha he => ?taken, fun s a h ho hn ha => ?skipped⟩
  case taken =>
    subst ha he
    have hj : takesJump .jn s.n s.z = true := takesJump_iff.mpr (.inr (.inl ⟨rfl, hn⟩))
    exact wholeInstruction_takenJump h ho rfl hj (exec_jn_taken · hn)
  case skipped =>
    subst ha
    have hj : skipsJump .jn s.n s.z = true := skipsJump_iff.mpr (.inl ⟨rfl, hn⟩)
    exact wholeInstruction_skippedJump h ho rfl hj (exec_jn_skipped · hn)

/-- Settles O20: JZ is taken or skipped as Z says. -/
theorem jzJumpsIfZero : Obligations.JzJumpsIfZero := by
  refine ⟨fun e _ => exec_jz_taken e, fun e _ => exec_jz_skipped e,
    fun _ => encode_eq_pair .jz rfl rfl (by decide), fun s a e h ho hz ha he => ?taken, fun s a h ho hz ha => ?skipped⟩
  case taken =>
    subst ha he
    have hj : takesJump .jz s.n s.z = true := takesJump_iff.mpr (.inr (.inr ⟨rfl, hz⟩))
    exact wholeInstruction_takenJump h ho rfl hj (exec_jz_taken · hz)
  case skipped =>
    subst ha
    have hj : skipsJump .jz s.n s.z = true := skipsJump_iff.mpr (.inr ⟨rfl, hz⟩)
    exact wholeInstruction_skippedJump h ho rfl hj (exec_jz_skipped · hz)

end Sys2Proof.Machine
end

section
/-! NOP (44_nop_hlt.md): the range of bytes that hold a code, and an instruction that is its fetch phase and nothing more. -/

namespace Sys2Proof

/-- A code is held by the sixteen bytes from sixteen times its number on (R38, R41, D1). -/
theorem decodeOpcode_eq_iff_toNat_div {b : Byte} {op : Opcode} :
    decodeOpcode b = op ↔ b.toNat / 16 = op.code.toNat := by
  have hfield : (opcodeField b).toNat = b.toNat / 16 := by
    rw [opcodeField, BitVec.extractLsb'_toNat, Nat.shiftRight_eq_div_pow]
    exact Nat.mod_eq_of_lt (by omega)
  rw [decodeOpcode_eq_iff, ← BitVec.toNat_inj, hfield]

theorem decodeOpcode_nop_of_le {b : Byte} (hb : b.toNat ≤ 0x0F) : decodeOpcode b = .nop :=
  decodeOpcode_eq_iff_toNat_div.mpr (Nat.div_eq_of_lt (Nat.lt_succ_of_le hb))

end Sys2Proof

namespace Sys2Proof.Machine

theorem exec_nop (s : State) : exec .nop s = .next { s with t := .t0 } := rfl

/-- What differs from the start is PC and the registers of the fetch phase: the one time step after it moves t alone. -/
theorem wholeInstruction_nop {s : State} (h : readyToFetch s = true) (ho : opcodeAt s = .nop) :
    step s = .next { s with pc := s.pc + 1, ri := opcodeByteAt s, rem := s.pc, rdm := opcodeByteAt s } ∧
    timeStates s = 4 ∧ accesses s = [.read s.pc (opcodeByteAt s)] := by
  obtain ⟨hstep, hrest⟩ := wholeInstruction h (by decide) (instructionAt_of_f1 ho rfl) (exec_nop _)
    (completes_nop (inTimeState_fetchPhase h) ho)
  refine ⟨?_, hrest⟩
  rw [hstep, ← (readyToFetch_iff.mp h).2]
  rfl

/-- Settles O21: the execution phase is one time step with goto t0 alone, and the sixteen bytes are those below 0x10. -/
theorem nopOnlyAdvancesPC : Obligations.NopOnlyAdvancesPC := by
  refine ⟨exec_nop, by decide, fun _ hb => decodeOpcode_nop_of_le hb, fun s a h ho ha => ?_⟩
  subst ha
  exact wholeInstruction_nop h ho

end Sys2Proof.Machine
end

section
/-! The execution phases with a data operand and those of the taken jumps, time state by time state
(45_datapath_microops.md section 3): each time step is the transfer of the signals that its cell of the tables lists. -/

namespace Sys2Proof.Machine

theorem InTimeState.succ_eq {s : State} {t : TimeState} {op : Opcode} (hs : InTimeState s t op) :
    s.t.succ = t.succ := by
  obtain ⟨-, rfl, -⟩ := hs
  rfl

/-! ### STA, LDA, ADD, OR and AND -/

/-- STA loads RDM from AC where the others read the cell (R96 to R100). -/
theorem activeSignals_data_t6 : ∀ op ∈ [Opcode.sta, .lda, .add, .or, .and], ∀ n z : Bool,
    activeSignals .t6 op n z = if op = .sta then [.cargaRDM] else [.read] := by decide

section
variable {s : State} {op : Opcode} (ho : op ∈ [.sta, .lda, .add, .or, .and])
include ho

theorem microStep_data_t3 (hs : InTimeState s .t3 op) : microStep s = .next { s with rem := s.pc, t := .t4 } := by
  obtain ⟨h3, -, -⟩ := activeSignals_data op ho s.n s.z
  exact (microStep_of_signals hs h3).trans (transfer_cargaREM s hs.succ_eq)

theorem microStep_data_t4 (hs : InTimeState s .t4 op) :
    microStep s = .next { s with rdm := s.mem.read s.rem, pc := s.pc + 1, t := .t5 } := by
  obtain ⟨-, h4, -⟩ := activeSignals_data op ho s.n s.z
  exact (microStep_of_signals hs h4).trans (transfer_read_incrementaPC s hs.succ_eq)

theorem microStep_data_t5 (hs : InTimeState s .t5 op) : microStep s = .next { s with rem := s.rdm, t := .t6 } := by
  obtain ⟨-, -, h5⟩ := activeSignals_data op ho s.n s.z
  exact (microStep_of_signals hs h5).trans (transfer_cargaREM_sel s hs.succ_eq)

theorem microStep_data_t6 (hs : InTimeState s .t6 op) :
    microStep s = .next { s with rdm := if op = .sta then s.ac else s.mem.read s.rem, t := .t7 } := by
  have h6 := activeSignals_data_t6 op ho s.n s.z
  by_cases hsta : op = .sta
  · rw [if_pos hsta] at h6 ⊢
    exact (microStep_of_signals hs h6).trans (transfer_cargaRDM s hs.succ_eq)
  · rw [if_neg hsta] at h6 ⊢
    exact (microStep_of_signals hs h6).trans (transfer_read s hs.succ_eq)

end

theorem microStep_sta_t7 {s : State} (hs : InTimeState s .t7 .sta) :
    microStep s = .next { s with mem := s.mem.write s.rem s.rdm, t := .t0 } :=
  (microStep_of_signals hs rfl).trans (transfer_write_gotoT0 s)

/-- LDA, ADD, OR and AND differ in the operation of the UAL alone. -/
theorem microStep_load_t7 {s : State} {op : Opcode} (u : UalOp) {r : Byte} (hs : InTimeState s .t7 op)
    (h7 : activeSignals .t7 op s.n s.z = [.ual u, .cargaAC, .cargaNZ, .gotoT0]) (hr : ual u s.ac s.rdm = r) :
    microStep s = .next { s with ac := r, n := r.getLsbD 7, z := decide (r = 0), t := .t0 } := by
  subst hr
  rw [← flagN_eq, ← flagZ_eq]
  exact (microStep_of_signals hs h7).trans (transfer_ual_gotoT0 s u)

theorem timeStates_data {s : State} (h : readyToFetch s = true) (ho : opcodeAt s ∈ [.sta, .lda, .add, .or, .and]) :
    timeStates s = 8 := by
  have hs := inTimeState_fetchPhase h
  have load (u : UalOp) (hl : opcodeAt s ∈ [.lda, .add, .or, .and])
      (h7 : activeSignals .t7 (opcodeAt s) s.n s.z = [.ual u, .cargaAC, .cargaNZ, .gotoT0]) : timeStates s = 8 :=
    (completes_fetch h (completes_load hs hl h7)).timeStates_eq (by decide)
  cases hop : opcodeAt s with
  | sta => exact (completes_fetch h (completes_store hs hop)).timeStates_eq (by decide)
  | lda => exact load .y (by simp [hop]) (by rw [hop]; rfl)
  | add => exact load .add (by simp [hop]) (by rw [hop]; rfl)
  | or => exact load .or (by simp [hop]) (by rw [hop]; rfl)
  | and => exact load .and (by simp [hop]) (by rw [hop]; rfl)
  | _ => simp [hop] at ho

/-- Settles O51: the signals are the tables' cells, and each time step from t3 to t7 is the transfer of its cell; at t7 the
four loads are one transfer with their own UAL operation. -/
theorem dataInstructionsInTimeSteps : Obligations.DataInstructionsInTimeSteps := by
  refine ⟨fun op n z ho => ?signals, fun n z => ⟨rfl, rfl, rfl, rfl, rfl⟩,
    fun s op ho => ⟨microStep_data_t3 ho, microStep_data_t4 ho, microStep_data_t5 ho, microStep_data_t6 ho⟩,
    fun s => microStep_sta_t7, fun s r hload => ?load, fun s => timeStates_data⟩
  case signals =>
    obtain ⟨h3, h4, h5⟩ := activeSignals_data op ho n z
    exact ⟨h3, h4, h5, activeSignals_data_t6 op ho n z⟩
  case load =>
    obtain ⟨hs, hr⟩ | ⟨hs, hr⟩ | ⟨hs, hr⟩ | ⟨hs, hr⟩ := hload
    · exact microStep_load_t7 .y hs rfl hr.symm
    · exact microStep_load_t7 .add hs rfl ((ual_add_eq_ofNat s.ac s.rdm).trans hr.symm)
    · exact microStep_load_t7 .or hs rfl hr.symm
    · exact microStep_load_t7 .and hs rfl hr.symm

/-! ### A taken JMP, JN or JZ -/

section
variable {s : State} {op : Opcode} (hj : takesJump op s.n s.z = true)
include hj

theorem microStep_takenJump_t3 (hs : InTimeState s .t3 op) : microStep s = .next { s with rem := s.pc, t := .t4 } := by
  obtain ⟨h3, -, -⟩ := activeSignals_takenJump hj
  exact (microStep_of_signals hs h3).trans (transfer_cargaREM s hs.succ_eq)

theorem microStep_takenJump_t4 (hs : InTimeState s .t4 op) :
    microStep s = .next { s with rdm := s.mem.read s.rem, t := .t5 } := by
  obtain ⟨-, h4, -⟩ := activeSignals_takenJump hj
  exact (microStep_of_signals hs h4).trans (transfer_read s hs.succ_eq)

theorem microStep_takenJump_t5 (hs : InTimeState s .t5 op) : microStep s = .next { s with pc := s.rdm, t := .t0 } := by
  obtain ⟨-, -, h5⟩ := activeSignals_takenJump hj
  exact (microStep_of_signals hs h5).trans (transfer_cargaPC_gotoT0 s)

end

theorem timeStates_takenJump {s : State} (h : readyToFetch s = true) (hj : takesJump (opcodeAt s) s.n s.z = true) :
    timeStates s = 6 :=
  (completes_fetch h (completes_takenJump (inTimeState_fetchPhase h) hj)).timeStates_eq (by decide)

/-- Settles O52: the three jumps are the term of a taken jump in the equations, and each time step from t3 to t5 is the
transfer of the signals that the term gives. -/
theorem takenJumpsInTimeSteps : Obligations.TakenJumpsInTimeSteps := by
  refine ⟨fun op n z hop => activeSignals_takenJump (takesJump_iff.mpr hop), fun s op hop => ?transfers,
    fun s h hop => timeStates_takenJump h (takesJump_iff.mpr hop)⟩
  case transfers =>
    have hj : takesJump op s.n s.z = true := takesJump_iff.mpr hop
    exact ⟨microStep_takenJump_t3 hj, microStep_takenJump_t4 hj, microStep_takenJump_t5 hj⟩

end Sys2Proof.Machine
end

section
/-! The tables against the equations (46_control_unit.md): in each cell the active signals are the listed ones, up to the
order in which the cell lists them. The thirteen columns are of three shapes: the data instructions, the taken jumps, and
the columns that end at t3. -/

namespace Sys2Proof.Machine

theorem mem_activeSignals {t : TimeState} {op : Opcode} {n z : Bool} {sig : Signal} :
    sig ∈ activeSignals t op n z ↔ equation t op n z sig = true := by
  simp [activeSignals, Signal.mem_all]

section
variable {c : Column} {n z : Bool} {t : TimeState} {cell : List Signal} (hc : c.cells[t.index]? = some cell)
include hc

theorem activeSignals_perm_fetchCell (ht : t.isFetch = true) : (activeSignals t c.opcode n z).Perm cell := by
  cases t with
  | t0 | t1 | t2 => cases hc; exact .refl _
  | _ => cases ht

/-- The last cell, `L`, is what tells the five columns apart, and the cell at t6 is what tells STA from the others. -/
theorem activeSignals_perm_dataCell {L : List Signal} (ht : t.isFetch = false)
    (ho : c.opcode ∈ [.sta, .lda, .add, .or, .and])
    (hcells : c.executionCells = [[.cargaREM], [.read, .incrementaPC], [.sel, .cargaREM],
      if c.opcode = .sta then [.cargaRDM] else [.read], L])
    (h7 : activeSignals .t7 c.opcode n z = L) : (activeSignals t c.opcode n z).Perm cell := by
  obtain ⟨h3, h4, h5⟩ := activeSignals_data _ ho n z
  rw [Column.cells, hcells] at hc
  cases t with
  | t0 | t1 | t2 => cases ht
  | t3 => cases hc; exact .of_eq h3
  | t4 => cases hc; exact .of_eq h4
  | t5 => cases hc; exact (List.Perm.of_eq h5).trans (.swap ..)
  | t6 => cases hc; exact .of_eq (activeSignals_data_t6 _ ho n z)
  | t7 => cases hc; exact .of_eq h7

theorem activeSignals_perm_takenJumpCell (ht : t.isFetch = false) (hj : takesJump c.opcode n z = true)
    (hcells : c.executionCells = [[.cargaREM], [.read], [.cargaPC, .gotoT0]]) :
    (activeSignals t c.opcode n z).Perm cell := by
  obtain ⟨h3, h4, h5⟩ := activeSignals_takenJump hj
  rw [Column.cells, hcells] at hc
  cases t with
  | t0 | t1 | t2 => cases ht
  | t3 => cases hc; exact .of_eq h3
  | t4 => cases hc; exact .of_eq h4
  | t5 => cases hc; exact .of_eq h5
  | t6 | t7 => cases hc

theorem activeSignals_perm_onlyCell {L : List Signal} (ht : t.isFetch = false) (hcells : c.executionCells = [L])
    (h3 : activeSignals .t3 c.opcode n z = L) : (activeSignals t c.opcode n z).Perm cell := by
  rw [Column.cells, hcells] at hc
  cases t with
  | t0 | t1 | t2 => cases ht
  | t3 => cases hc; exact .of_eq h3
  | t4 | t5 | t6 | t7 => cases hc

theorem activeSignals_perm_cell (ha : c.applies n z = true) : (activeSignals t c.opcode n z).Perm cell := by
  cases ht : t.isFetch with
  | true => exact activeSignals_perm_fetchCell hc ht
  | false =>
    cases c with
    | sta | lda | add | or | and => exact activeSignals_perm_dataCell hc ht (by decide) rfl rfl
    | jmp => exact activeSignals_perm_takenJumpCell hc ht rfl rfl
    | jnTaken => exact activeSignals_perm_takenJumpCell hc ht (takesJump_iff.mpr (.inr (.inl ⟨rfl, ha⟩))) rfl
    | jzTaken => exact activeSignals_perm_takenJumpCell hc ht (takesJump_iff.mpr (.inr (.inr ⟨rfl, ha⟩))) rfl
    | jnUntaken | jzUntaken =>
      exact activeSignals_perm_onlyCell hc ht rfl
        (activeSignals_skippedJump (by simpa [skipsJump_iff, Column.opcode, Column.applies] using ha))
    | not | nop | hlt => exact activeSignals_perm_onlyCell hc ht rfl rfl

end

/-- Settles O48: an equation is true exactly if its signal is active, and the active signals are those of the cell. -/
theorem equationsGiveTheTables : Obligations.EquationsGiveTheTables :=
  fun _ _ _ _ _ ha hc _ => mem_activeSignals.symm.trans (activeSignals_perm_cell hc ha).mem_iff

end Sys2Proof.Machine
end

section
/-! What an instruction costs (70_reset_and_hazards.md R155, R156): the time states it takes and the memory reads and writes
among its accesses, one class of instructions at a time; then the time states in which Read and Write are active. -/

namespace Sys2Proof.Machine

/-! ### Time states, reads and writes -/

/-- The accesses that the column of reads in R155 counts. -/
def Access.isRead : Access → Bool
  | .read _ _ => true
  | .write _ _ => false

/-- The accesses that the column of writes in R155 counts. -/
def Access.isWrite : Access → Bool
  | .read _ _ => false
  | .write _ _ => true

/-- The instruction that begins in `s` takes `k` time states, `r` memory reads and `w` memory writes: a row of the table
under R155. -/
def Takes (s : State) (k r w : Nat) : Prop :=
  timeStates s = k ∧ ((accesses s).filter Access.isRead).length = r ∧ ((accesses s).filter Access.isWrite).length = w

/-- The UAL operation is what tells the four loads apart (R97 to R100). -/
theorem activeSignals_load_t7 {op : Opcode} (ho : op ∈ [.lda, .add, .or, .and]) (n z : Bool) :
    ∃ u, activeSignals .t7 op n z = [.ual u, .cargaAC, .cargaNZ, .gotoT0] := by
  simp only [List.mem_cons, List.not_mem_nil, or_false] at ho
  obtain rfl | rfl | rfl | rfl := ho
  exacts [⟨.y, rfl⟩, ⟨.add, rfl⟩, ⟨.or, rfl⟩, ⟨.and, rfl⟩]

/-- NOP, NOT and HLT have an execution phase of one time step that accesses no memory (R95, R101, R107). -/
theorem exists_completes_oneStep {s : State} {op : Opcode} (hs : InTimeState s .t3 op) (ho : op ∈ [.nop, .not, .hlt]) :
    ∃ s', Completes 1 [] s s' := by
  simp only [List.mem_cons, List.not_mem_nil, or_false] at ho
  obtain ho | ho | ho := ho
  exacts [⟨_, completes_nop hs ho⟩, ⟨_, completes_not hs ho⟩, ⟨_, completes_hlt hs ho⟩]

section
variable {s : State} (h : readyToFetch s = true)
include h

/-- The fetch phase adds three time states and one read to an execution phase. -/
theorem takes_of_completes {n : Nat} {acc : List Access} {s' : State} (hn : n + 3 ≤ timeStateCount)
    (hc : Completes n acc (fetchPhase s) s') :
    Takes s (n + 3) ((acc.filter Access.isRead).length + 1) (acc.filter Access.isWrite).length := by
  have hw := completes_fetch h hc
  refine ⟨hw.timeStates_eq hn, ?_⟩
  rw [hw.accesses_eq hn]
  exact ⟨rfl, rfl⟩

theorem takes_store (ho : opcodeAt s = .sta) : Takes s 8 2 1 :=
  takes_of_completes h (by decide) (completes_store (inTimeState_fetchPhase h) ho)

theorem takes_load (ho : opcodeAt s ∈ [.lda, .add, .or, .and]) : Takes s 8 3 0 := by
  obtain ⟨u, h7⟩ := activeSignals_load_t7 ho s.n s.z
  exact takes_of_completes h (by decide) (completes_load (inTimeState_fetchPhase h) ho h7)

theorem takes_oneStep (ho : opcodeAt s ∈ [.nop, .not, .hlt]) : Takes s 4 1 0 := by
  obtain ⟨s', hc⟩ := exists_completes_oneStep (inTimeState_fetchPhase h) ho
  exact takes_of_completes h (by decide) hc

theorem takes_takenJump (hj : takesJump (opcodeAt s) s.n s.z = true) : Takes s 6 2 0 :=
  takes_of_completes h (by decide) (completes_takenJump (inTimeState_fetchPhase h) hj)

theorem takes_skippedJump (hj : skipsJump (opcodeAt s) s.n s.z = true) : Takes s 4 1 0 :=
  takes_of_completes h (by decide) (completes_skippedJump (inTimeState_fetchPhase h) hj)

end

/-- Settles O55: the rows of the table are the classes of instructions, each with its execution phase after the fetch phase. -/
theorem timeStatesOfEachInstruction : Obligations.TimeStatesOfEachInstruction := by
  rintro s _ _ h rfl rfl
  exact ⟨takes_store h, takes_load h, takes_oneStep h, fun hj => takes_takenJump h (takesJump_iff.mpr hj),
    fun hj => takes_skippedJump h (skipsJump_iff.mpr hj)⟩

/-! ### When memory is accessed -/

theorem hasDataOperand_iff {op : Opcode} : hasDataOperand op = true ↔ op ∈ [.sta, .lda, .add, .or, .and] := by
  simp [hasDataOperand, or_assoc]

theorem loadsFromMemory_iff {op : Opcode} : loadsFromMemory op = true ↔ op ∈ [.lda, .add, .or, .and] := by
  simp [loadsFromMemory, or_assoc]

/-- The instructions that read their address byte, at t4: an untaken jump does not (R75). -/
theorem readsAddressByte_iff {op : Opcode} {n z : Bool} :
    (hasDataOperand op || takesJump op n z) = true ↔
      op ∈ [.sta, .lda, .add, .or, .and, .jmp] ∨ op = .jn ∧ n = true ∨ op = .jz ∧ z = true := by
  rw [Bool.or_eq_true, hasDataOperand_iff, takesJump_iff]
  simp only [List.mem_cons, List.not_mem_nil, or_false, or_assoc]

section
variable {t : TimeState} {op : Opcode} {n z : Bool}

theorem equation_read_iff :
    equation t op n z .read = true ↔
      t = .t1 ∨
      t = .t4 ∧ (op ∈ [.sta, .lda, .add, .or, .and, .jmp] ∨ op = .jn ∧ n = true ∨ op = .jz ∧ z = true) ∨
      t = .t6 ∧ op ∈ [.lda, .add, .or, .and] := by
  rw [← readsAddressByte_iff, ← loadsFromMemory_iff, equation]
  simp only [Bool.or_eq_true, Bool.and_eq_true, beq_iff_eq, or_assoc]

theorem equation_write_iff : equation t op n z .write = true ↔ t = .t7 ∧ op = .sta := by
  simp only [equation, Bool.and_eq_true, beq_iff_eq]

/-- Write is of t7 alone, where no instruction reads. -/
theorem not_read_and_write : ¬(equation t op n z .read = true ∧ equation t op n z .write = true) := by
  rintro ⟨hread, hwrite⟩
  obtain ⟨rfl, -⟩ := equation_write_iff.mp hwrite
  obtain ht | ⟨ht, -⟩ | ⟨ht, -⟩ := equation_read_iff.mp hread <;> cases ht

end

/-- Settles O56: the equations of Read and Write, their sums of decoder lines read as lists of instructions. -/
theorem whenMemoryIsAccessed : Obligations.WhenMemoryIsAccessed :=
  fun _ _ _ _ => ⟨equation_read_iff, equation_write_iff, not_read_and_write⟩

end Sys2Proof.Machine
end

section
/-! The decoder against the encoder, format by format: an instruction and its opcode have the same format, so decoding undoes
encoding (30_encoding.md R37 to R45). -/

namespace Sys2Proof

/-! ### The format of an instruction -/

/-- Format F1 (R38): the opcode byte is all there is. -/
theorem Opcode.format_f1 {op : Opcode} {i : Instr} (h : op.format = .f1 i) : i.opcode = op ∧ i.addressBytes = [] := by
  cases op <;> cases h <;> exact ⟨rfl, rfl⟩

/-- Format F2 (R39): the operand is the one byte after the opcode byte. -/
theorem Opcode.format_f2 {op : Opcode} {mk : Byte → Instr} (h : op.format = .f2 mk) (e : Byte) :
    (mk e).opcode = op ∧ (mk e).addressBytes = [e] := by
  cases op <;> cases h <;> exact ⟨rfl, rfl⟩

/-- An instruction is the one that the format of its opcode makes of its operand. -/
theorem Instr.format_opcode (i : Instr) :
    (i.opcode.format = .f1 i ∧ i.addressBytes = []) ∨
      ∃ mk e, i.opcode.format = .f2 mk ∧ i = mk e ∧ i.addressBytes = [e] := by
  cases i with
  | sta e | lda e | add e | or e | and e | jmp e | jn e | jz e => exact .inr ⟨_, e, rfl, rfl, rfl⟩
  | _ => exact .inl ⟨rfl, rfl⟩

/-! ### Decode and encode -/

section
variable {b : Byte} (rest : List Byte)

theorem decode_of_f1 {i : Instr} (h : (decodeOpcode b).format = .f1 i) : decode (b :: rest) = .instr i rest := by
  simp only [decode, h]

theorem decode_of_f2 {mk : Byte → Instr} (e : Byte) (h : (decodeOpcode b).format = .f2 mk) :
    decode (b :: e :: rest) = .instr (mk e) rest := by
  simp only [decode, h]

theorem decode_of_f2_nil {mk : Byte → Instr} (h : (decodeOpcode b).format = .f2 mk) :
    decode [b] = .rejected (.noAddressByte (decodeOpcode b)) := by
  simp only [decode, h]

end

/-- Decoding undoes encoding, whatever the ignored low half. -/
theorem decode_encodeWith (low : BitVec 4) (i : Instr) (rest : List Byte) :
    decode (encodeWith low i ++ rest) = .instr i rest := by
  have hop : (decodeOpcode (opcodeByte i.opcode.code low)).format = i.opcode.format :=
    congrArg Opcode.format (decodeOpcode_opcodeByte _ _)
  obtain ⟨hf, ha⟩ | ⟨mk, e, hf, hi, ha⟩ := i.format_opcode
  · rw [encodeWith, ha]
    exact decode_of_f1 rest (hop.trans hf)
  · rw [encodeWith, ha]
    exact (decode_of_f2 rest e (hop.trans hf)).trans (hi ▸ rfl)

/-- An opcode byte is the code of what it decodes to, and its own low half. -/
theorem opcodeByte_code_decodeOpcode (b : Byte) : opcodeByte (decodeOpcode b).code (ignoredField b) = b := by
  rw [← (decodeOpcode_eq_iff b _).mp rfl, opcodeByte_fields]

/-- Encoding undoes decoding, with the low half of the opcode byte that was decoded. -/
theorem exists_encodeWith_of_decode {bytes rest : List Byte} {i : Instr} (h : decode bytes = .instr i rest) :
    ∃ low, bytes = encodeWith low i ++ rest := by
  cases bytes with
  | nil => cases h
  | cons b tail =>
    refine ⟨ignoredField b, ?_⟩
    cases hf : (decodeOpcode b).format with
    | f1 j =>
      cases (decode_of_f1 tail hf).symm.trans h
      obtain ⟨ho, ha⟩ := Opcode.format_f1 hf
      rw [encodeWith, ho, ha, opcodeByte_code_decodeOpcode]
      rfl
    | f2 mk =>
      cases tail with
      | nil => cases (decode_of_f2_nil hf).symm.trans h
      | cons e tail =>
        cases (decode_of_f2 tail e hf).symm.trans h
        obtain ⟨ho, ha⟩ := Opcode.format_f2 hf e
        rw [encodeWith, ho, ha, opcodeByte_code_decodeOpcode]
        rfl

/-- Settles O2: decoding undoes encoding with any low half, and encoding undoes decoding. -/
theorem decodeReadsExactlyTheEncodings : Obligations.DecodeReadsExactlyTheEncodings := by
  refine ⟨fun i _ => ?_, fun bytes rest i => ⟨exists_encodeWith_of_decode, ?_⟩⟩
  · simpa [encode] using decode_encodeWith 0 i []
  · rintro ⟨low, rfl⟩
    exact decode_encodeWith low i rest

/-- Settles O3: the decoder takes bits 7:4 of the opcode byte, and the format says what becomes of the byte after it. -/
theorem decodingDependsOnTheCodeAlone : Obligations.DecodingDependsOnTheCodeAlone := by
  refine ⟨fun b b' e h => ?code, fun b e e' h => ?oneByte, fun b e a h => ?operand⟩
  case code =>
    have hop : decodeOpcode b = decodeOpcode b' := congrArg opcodeOfCode h
    rw [decodeInstr, decodeInstr, hop]
  case oneByte =>
    cases hf : (decodeOpcode b).format with
    | f1 i => rw [decodeInstr_of_f1 e' hf, decodeInstr_of_f1 e hf]
    | f2 mk =>
      rw [decodeInstr_of_f2 e hf, (Opcode.format_f2 hf e).2] at h
      cases h
  case operand =>
    cases hf : (decodeOpcode b).format with
    | f1 i =>
      rw [decodeInstr_of_f1 e hf, (Opcode.format_f1 hf).2] at h
      cases h
    | f2 mk =>
      rw [decodeInstr_of_f2 e hf, (Opcode.format_f2 hf e).2] at h
      exact (List.singleton_inj.mp h).symm

/-- Settles O1: the decoder evaluated on the sixteen words. -/
theorem decodeOfWrittenOutWords : Obligations.DecodeOfWrittenOutWords := by
  unfold Obligations.DecodeOfWrittenOutWords
  decide

end Sys2Proof
end

section
/-! The two levels (45_datapath_microops.md section 4): the time steps of an instruction and its step end in one state. So a
step from any state is a run of time steps, and what every time step keeps, every step keeps. -/

namespace Sys2Proof.Machine

/-- Settles O8: the time steps that follow the pseudocode end where the step ends. -/
theorem instructionAndOrganisationLevelsAgree : Obligations.InstructionAndOrganisationLevelsAgree := by
  intro s h
  obtain ⟨n, s', hn, hstep, -, hc⟩ := stepFollows h
  exact ⟨(hc.runInstruction_eq hn).trans hstep.symm, hc.accesses_eq hn⟩

/-- A step is the run of its time steps, from t0 (R109) and from the middle of an instruction (log 9). -/
theorem runInstruction_of_step {s s' : State} (h : step s = .next s') : runInstruction s = .next s' := by
  obtain ⟨hr, -⟩ | ⟨-, -, hrun⟩ := step_cases h
  · exact (instructionAndOrganisationLevelsAgree s hr).1.trans h
  · exact hrun

/-- A property that every time step keeps, every step keeps. -/
theorem step_keeps {P : State → Prop} (hP : ∀ s s', P s → microStep s = .next s' → P s') {s s' : State} (hs : P s)
    (h : step s = .next s') : P s' :=
  microRun_keeps hP timeStateCount s s' hs (runInstruction_of_step h)

theorem atBoundary_of_instructionEnded {s : State} (h : instructionEnded s = true) : AtBoundary s := by
  intro hr
  simpa [instructionEnded, hr] using h

theorem atBoundary_of_readyToFetch {s : State} (h : readyToFetch s = true) : AtBoundary s :=
  fun _ => (readyToFetch_iff.mp h).2

/-- Between instructions a machine is about to fetch or has stopped. -/
theorem AtBoundary.ready_or_stopped {s : State} (h : AtBoundary s) : readyToFetch s = true ∨ Stopped s := by
  by_cases hr : s.run = .running
  · exact .inl (readyToFetch_iff.mpr ⟨hr, h hr⟩)
  · exact .inr hr

/-- Settles O40: the run of time steps that a step is stops at the end of the instruction. -/
theorem stepEndsBetweenInstructions : Obligations.StepEndsBetweenInstructions :=
  fun _ _ h => atBoundary_of_instructionEnded (microRun_ended _ _ _ (runInstruction_of_step h))

/-- Settles O10: the step that follows the pseudocode ends between instructions. -/
theorem readyMachineAlwaysSteps : Obligations.ReadyMachineAlwaysSteps := by
  intro s h
  obtain ⟨-, s', -, hstep, -⟩ := stepFollows h
  exact ⟨s', hstep, (stepEndsBetweenInstructions s s' hstep).ready_or_stopped⟩

/-- Settles O9: step and microStep look at run first. -/
theorem stoppedMachineHasNoStep : Obligations.StoppedMachineHasNoStep :=
  fun _ => ⟨fun h => ⟨step_halted h, microStep_halted h⟩, fun _ h => ⟨step_faulted h, microStep_faulted h⟩⟩

/-! ### The invariants -/

/-- Write is the one signal that changes memory (R91). -/
theorem nextMem_cases {sig : Signal → Bool} {s : State} {m : Memory} (h : nextMem sig s = some m) :
    m = s.mem ∨ m = s.mem.write s.rem s.rdm := by
  unfold nextMem at h
  split at h <;> cases h
  · exact .inr rfl
  · exact .inl rfl

/-- Under signals that load AC and the flags together, either all three are kept or all three are of one result (R14). -/
theorem nextAcc_cases {sig : Signal → Bool} {s : State} {ac : Byte} {n z : Bool} (hsig : sig .cargaNZ = sig .cargaAC)
    (h : nextAcc sig s = some (ac, n, z)) : (ac = s.ac ∧ n = s.n ∧ z = s.z) ∨ (n = flagN ac ∧ z = flagZ ac) := by
  rw [nextAcc, hsig, Bool.or_self] at h
  split at h
  · cases h
    exact .inl ⟨rfl, rfl, rfl⟩
  · next hload _ =>
    simp only [hload, if_true] at h
    cases h
    exact .inr ⟨rfl, rfl⟩
  · cases h

theorem flagsAgree_iff {s : State} : FlagsAgree s ↔ s.n = flagN s.ac ∧ s.z = flagZ s.ac := by
  rw [FlagsAgree, flagN_eq, flagZ_eq]

theorem microStep_keeps_memoryCanonical (s s' : State) (hs : MemoryCanonical s) (h : microStep s = .next s') :
    MemoryCanonical s' := by
  obtain ⟨-, -, rfl⟩ | ht := microStep_cases h
  · exact hs
  · obtain ⟨-, hmem, -⟩ := transfer_next ht
    rw [MemoryCanonical]
    obtain hm | hm := nextMem_cases hmem <;> rw [hm]
    · exact hs
    · exact Memory.wf_write s.rem s.rdm hs

theorem microStep_keeps_flagsAgree (s s' : State) (hs : FlagsAgree s) (h : microStep s = .next s') : FlagsAgree s' := by
  obtain ⟨-, -, rfl⟩ | ht := microStep_cases h
  · exact hs
  · obtain ⟨-, -, -, hacc, -⟩ := transfer_next ht
    rw [flagsAgree_iff] at hs ⊢
    obtain ⟨hac, hn, hz⟩ | hnz := nextAcc_cases (sig := controlSignals s) rfl hacc
    · rwa [hac, hn, hz]
    · exact hnz

/-- Settles O39: a transfer writes a cell or keeps memory, and loads AC with both flags or none of the three. -/
theorem timeStepKeepsInvariants : Obligations.TimeStepKeepsInvariants :=
  fun s s' h => ⟨(microStep_keeps_memoryCanonical s s' · h), (microStep_keeps_flagsAgree s s' · h)⟩

/-- Settles O37: every time step of a step keeps it. -/
theorem stepKeepsMemoryCanonical : Obligations.StepKeepsMemoryCanonical :=
  fun _ _ => step_keeps microStep_keeps_memoryCanonical

/-- A zero AC has bit 7 at 0, so that the flags of one result are never both 1. -/
theorem FlagsAgree.not_both {s : State} (h : FlagsAgree s) : ¬(s.n = true ∧ s.z = true) := by
  obtain ⟨hn, hz⟩ := h
  rintro ⟨hn1, hz1⟩
  rw [hz, decide_eq_true_eq] at hz1
  rw [hn, hz1] at hn1
  cases hn1

theorem exec_flagsAgree {i : Instr} {s s' : State} (hi : i.opcode ∈ [.lda, .add, .or, .and, .not])
    (h : exec i s = .next s') : FlagsAgree s' := by
  rw [flagsAgree_iff]
  cases i with
  | lda e | add e | or e | and e | not => cases h; exact ⟨rfl, rfl⟩
  | _ => simp [Instr.opcode] at hi

theorem step_flagsAgree {s s' : State} (hr : readyToFetch s = true) (ho : opcodeAt s ∈ [.lda, .add, .or, .and, .not])
    (h : step s = .next s') : FlagsAgree s' :=
  exec_flagsAgree ((opcode_instructionAt s).symm ▸ ho) (step_ready hr ▸ h)

/-- Settles O38: the load of AC and the flags from one result establishes the agreement, and every time step keeps it. -/
theorem flagsAgreeForEverAfter : Obligations.FlagsAgreeForEverAfter := by
  have hstep (s s' : State) (hs : FlagsAgree s) (h : step s = .next s') : FlagsAgree s' :=
    step_keeps microStep_keeps_flagsAgree hs h
  refine ⟨fun s s' hr ho h => step_flagsAgree hr ho h, hstep, fun k s s' hs h => ?_, ?_⟩
  · have hs' : FlagsAgree s' := run_keeps hstep k s s' hs h
    exact ⟨hs', hs'.not_both⟩
  · exact ⟨{ Launch.default with initN := true, initZ := true }, rfl, rfl⟩

end Sys2Proof.Machine
end

section
/-! Memory over time: the accesses of a step, and of a run, against the memory they begin with (20_memory.md R32); then the
representation of memory, which leaves no content out (log 4). -/

namespace Sys2Proof.Machine

/-! ### Accesses one after another -/

theorem cellAfter_append (start a : Byte) (xs ys : List Access) :
    cellAfter start a (xs ++ ys) = cellAfter (cellAfter start a xs) a ys := by
  induction xs generalizing start with
  | nil => rfl
  | cons x xs ih =>
    cases x with
    | read b v => exact ih _
    | write b v => exact ih _

/-- What a list of accesses leaves is the memory that the next list begins with. -/
theorem coherent_append {m : Byte → Byte} {xs ys : List Access} :
    Coherent m (xs ++ ys) ↔ Coherent m xs ∧ Coherent (fun a => cellAfter (m a) a xs) ys := by
  induction xs generalizing m with
  | nil => exact (iff_of_eq (true_and _)).symm
  | cons x xs ih =>
    cases x with
    | read b v => exact (and_congr_right fun _ => ih).trans and_assoc.symm
    | write b v =>
      have hcell : (fun a => cellAfter (m a) a (.write b v :: xs)) = fun a => cellAfter (if a = b then v else m a) a xs :=
        funext fun a => congrArg (cellAfter · a xs) (if_congr eq_comm rfl rfl)
      rw [hcell]
      exact ih

/-- The accesses take a memory to another: each read returns the latest write, and the last writes are what is left. -/
def Leads (m : Byte → Byte) (acc : List Access) (m' : Byte → Byte) : Prop :=
  Coherent m acc ∧ ∀ a, m' a = cellAfter (m a) a acc

theorem Leads.refl (m : Byte → Byte) : Leads m [] m := ⟨trivial, fun _ => rfl⟩

theorem Leads.append {m m1 m' : Byte → Byte} {xs ys : List Access} (h1 : Leads m xs m1) (h2 : Leads m1 ys m') :
    Leads m (xs ++ ys) m' := by
  obtain ⟨hc1, hm1⟩ := h1
  obtain rfl : m1 = fun a => cellAfter (m a) a xs := funext hm1
  obtain ⟨hc2, hm2⟩ := h2
  exact ⟨coherent_append.mpr ⟨hc1, hc2⟩, fun a => (hm2 a).trans (cellAfter_append ..).symm⟩

theorem Leads.read {m m' : Byte → Byte} {acc : List Access} (a : Byte) (h : Leads m acc m') :
    Leads m (.read a (m a) :: acc) m' :=
  ⟨⟨rfl, h.1⟩, h.2⟩

theorem Leads.write (m : Byte → Byte) (a v : Byte) : Leads m [.write a v] fun x => if x = a then v else m x :=
  ⟨trivial, fun _ => if_congr eq_comm rfl rfl⟩

/-! ### The accesses of a step and of a run -/

theorem archLoad_leads (σ : Arch) (a r : Byte) :
    Leads σ.mem (archLoad σ a (σ.mem a) (σ.mem (a + 1)) r).accesses (archLoad σ a (σ.mem a) (σ.mem (a + 1)) r).after.mem :=
  (((Leads.refl _).read _).read _).read _

theorem archJump_leads (σ : Arch) (a : Byte) (c : Bool) :
    Leads σ.mem (archJump σ a (σ.mem a) (σ.mem (a + 1)) c).accesses
      (archJump σ a (σ.mem a) (σ.mem (a + 1)) c).after.mem := by
  cases c with
  | true => exact ((Leads.refl _).read _).read _
  | false => exact (Leads.refl _).read _

/-- The pseudocode reads what memory holds, and STA writes what it stores (R52). -/
theorem archStep_leads (σ : Arch) : Leads σ.mem (archStep σ).accesses (archStep σ).after.mem := by
  generalize hstep : archStep σ = x
  simp only [archStep] at hstep
  split at hstep <;> subst hstep
  case h_2 => exact ((Leads.write _ _ _).read _).read _
  case h_3 | h_4 | h_5 | h_6 => exact archLoad_leads ..
  case h_8 | h_9 | h_10 => exact archJump_leads ..
  all_goals exact (Leads.refl _).read _

theorem step_leads {s s' : State} (hr : readyToFetch s = true) (h : step s = .next s') :
    Leads s.mem.read (accesses s) s'.mem.read := by
  obtain ⟨⟨s1, hstep, harch⟩, hacc⟩ := stepFollowsThePseudocode.1 s hr
  cases hstep.symm.trans h
  have hmem : s'.mem.read = (archStep s.arch).after.mem := congrArg Arch.mem harch
  rw [hmem, hacc]
  exact archStep_leads s.arch

theorem runAccesses_succ {s s1 : State} (k : Nat) (h : step s = .next s1) :
    runAccesses (k + 1) s = accesses s ++ runAccesses k s1 := by
  simp only [runAccesses, h]

/-- A run from between two instructions: a step of it starts at t0, and ends between two instructions again. -/
theorem run_leads : ∀ (k : Nat) (s s' : State), AtBoundary s → Reaches k s s' →
    Leads s.mem.read (runAccesses k s) s'.mem.read
  | 0, s, _, _, h => reaches_zero.mp h ▸ Leads.refl _
  | k + 1, s, s', hs, h => by
    obtain ⟨s1, hstep, hrest⟩ := reaches_succ.mp h
    have hrun := running_of_step hstep
    rw [runAccesses_succ k hstep]
    exact (step_leads (readyToFetch_iff.mpr ⟨hrun, hs hrun⟩) hstep).append
      (run_leads k s1 s' (stepEndsBetweenInstructions s s1 hstep) hrest)

/-- Settles O34: by induction on the length of the run, from the accesses of one step. -/
theorem readsReturnTheLatestWrite : Obligations.ReadsReturnTheLatestWrite :=
  fun k s s' hr h => run_leads k s s' (atBoundary_of_readyToFetch hr) h

/-! ### Every content is one memory -/

/-- The cells below `k` filled one after another, and no other. -/
def Memory.fill (f : Byte → Byte) : Nat → Memory
  | 0 => []
  | k + 1 => (Memory.fill f k).write (BitVec.ofNat 8 k) (f (BitVec.ofNat 8 k))

theorem Memory.wf_fill (f : Byte → Byte) (k : Nat) : (Memory.fill f k).wf = true := by
  induction k with
  | zero => rfl
  | succ k ih => exact Memory.wf_write _ _ ih

theorem Memory.read_fill (f : Byte → Byte) {a : Byte} {k : Nat} (ha : a.toNat < k) : (Memory.fill f k).read a = f a := by
  induction k with
  | zero => omega
  | succ k ih =>
    rw [Memory.fill, Memory.read_write]
    split
    · next h => rw [h]
    · next h =>
      have hne : a.toNat ≠ k := by
        rintro rfl
        exact h (BitVec.ofNat_toNat 8 a).symm
      exact ih (by omega)

/-- The first pair of a canonical list is at the lowest cell that is not zero: no list with the same cells begins higher. -/
theorem Memory.not_wfFrom_above {lo k : Nat} {v : Byte} {m m' : Memory} (hm : Memory.wfFrom lo ((k, v) :: m) = true)
    (h : ∀ a < Config.memCells, Memory.readNat ((k, v) :: m) a = Memory.readNat m' a) :
    ¬Memory.wfFrom (k + 1) m' = true := by
  intro hm'
  obtain ⟨-, hk, hv, -⟩ := (Memory.wfFrom_cons ..).mp hm
  have hread := h k hk
  rw [Memory.readNat_cons, if_pos rfl, Memory.readNat_of_wfFrom_lt hm' k.lt_succ_self] at hread
  exact hv hread

/-- The cells determine the canonical list. -/
theorem Memory.wfFrom_ext {lo : Nat} {m m' : Memory} (hm : Memory.wfFrom lo m = true) (hm' : Memory.wfFrom lo m' = true)
    (h : ∀ a < Config.memCells, Memory.readNat m a = Memory.readNat m' a) : m = m' := by
  induction m generalizing lo m' with
  | nil =>
    cases m' with
    | nil => rfl
    | cons c' m' => exact absurd rfl (Memory.not_wfFrom_above hm' fun a ha => (h a ha).symm)
  | cons c m ih =>
    cases m' with
    | nil => exact absurd rfl (Memory.not_wfFrom_above hm h)
    | cons c' m' =>
      obtain ⟨k, v⟩ := c
      obtain ⟨k', v'⟩ := c'
      have hlt := Memory.not_wfFrom_above hm h
      have hlt' := Memory.not_wfFrom_above hm' fun a ha => (h a ha).symm
      rw [Memory.wfFrom_cons] at hm hm' hlt hlt'
      obtain ⟨-, hk, hv, hm⟩ := hm
      obtain ⟨-, hk', hv', hm'⟩ := hm'
      obtain rfl : k = k' := by
        obtain hkk | hkk | hkk := lt_trichotomy k k'
        · exact absurd ⟨hkk, hk', hv', hm'⟩ hlt
        · exact hkk
        · exact absurd ⟨hkk, hk, hv, hm⟩ hlt'
      obtain rfl : v = v' := by simpa using h k hk
      have htail : m = m' := ih hm hm' fun a ha => by
        by_cases hak : k = a
        · rw [← hak, Memory.readNat_of_wfFrom_lt hm k.lt_succ_self, Memory.readNat_of_wfFrom_lt hm' k.lt_succ_self]
        · simpa [hak] using h a ha
      rw [htail]

theorem Memory.ext_of_wf {m m' : Memory} (hm : m.wf = true) (hm' : m'.wf = true) (h : ∀ a, m.read a = m'.read a) :
    m = m' := by
  refine Memory.wfFrom_ext hm hm' fun a ha => ?_
  have hmod : a % 2 ^ 8 = a := Nat.mod_eq_of_lt ha
  have hread := h (BitVec.ofNat 8 a)
  rwa [Memory.read, Memory.read, BitVec.toNat_ofNat, hmod] at hread

/-- Settles O36: all 256 cells filled give the content, and a canonical list is determined by its cells. -/
theorem everyContentIsOneMemory : Obligations.EveryContentIsOneMemory := by
  intro f
  have hread (a : Byte) : (Memory.fill f Config.memCells).read a = f a := Memory.read_fill f a.isLt
  have hwf := Memory.wf_fill f Config.memCells
  exact ⟨_, ⟨hwf, hread⟩, fun m' hm' h => Memory.ext_of_wf hm' hwf fun a => (h a).trans (hread a).symm⟩

end Sys2Proof.Machine
end

section
/-! Frames: what the execution phase of an instruction leaves as it was, register by register; which instruction stops the
machine; and the states that the machine cannot tell apart. -/

namespace Sys2Proof.Machine

/-! ### What the execution phase keeps -/

theorem conditionalJump_acc (c : Bool) (e : Byte) (s : State) :
    (if c then jumpTo e s else stepOver s).ac = s.ac ∧ (if c then jumpTo e s else stepOver s).n = s.n ∧
      (if c then jumpTo e s else stepOver s).z = s.z := by
  cases c <;> exact ⟨rfl, rfl, rfl⟩

theorem conditionalJump_run (c : Bool) (e : Byte) (s : State) :
    (if c then jumpTo e s else stepOver s).run = s.run := by
  cases c <;> rfl

section
variable {i : Instr} {s s' : State}

theorem exec_keeps_acc (hi : i.opcode ∉ [.lda, .add, .or, .and, .not]) (h : exec i s = .next s') :
    s'.ac = s.ac ∧ s'.n = s.n ∧ s'.z = s.z := by
  cases i with
  | lda e | add e | or e | and e | not => simp [Instr.opcode] at hi
  | jn e => cases h; exact conditionalJump_acc s.n e s
  | jz e => cases h; exact conditionalJump_acc s.z e s
  | _ => cases h; exact ⟨rfl, rfl, rfl⟩

/-- The execution phase stops the machine for HLT and for a reserved code, and for no other (R54, R82, R142). -/
theorem exec_run_cases (h : exec i s = .next s') :
    (i.opcode = .hlt ∧ s'.run = .halted) ∨
    (i.opcode.isReserved = true ∧ s'.run = .faulted (.reservedOpcode s.ri)) ∨
    (i.opcode ≠ .hlt ∧ i.opcode.isReserved = false ∧ s'.run = s.run) := by
  cases i with
  | hlt => cases h; exact .inl ⟨rfl, rfl⟩
  | reserved0111 | reserved1011 | reserved1100 | reserved1101 | reserved1110 => cases h; exact .inr (.inl ⟨rfl, rfl⟩)
  | jn e => cases h; exact .inr (.inr ⟨nofun, rfl, conditionalJump_run s.n e s⟩)
  | jz e => cases h; exact .inr (.inr ⟨nofun, rfl, conditionalJump_run s.z e s⟩)
  | _ => cases h; exact .inr (.inr ⟨nofun, rfl, rfl⟩)

theorem exec_keeps_run (hh : i.opcode ≠ .hlt) (hres : i.opcode.isReserved = false) (h : exec i s = .next s') :
    s'.run = s.run := by
  obtain ⟨hhlt, -⟩ | ⟨hfault, -⟩ | ⟨-, -, hrun⟩ := exec_run_cases h
  · exact absurd hhlt hh
  · exact absurd (hres.symm.trans hfault) nofun
  · exact hrun

/-- What has no address byte reads nothing more and does not move PC. -/
theorem exec_oneByte (hi : i.addressBytes = []) (h : exec i s = .next s') :
    s'.rem = s.rem ∧ s'.rdm = s.rdm ∧ s'.pc = s.pc := by
  cases i with
  | sta e | lda e | add e | or e | and e | jmp e | jn e | jz e => cases hi
  | _ => cases h; exact ⟨rfl, rfl, rfl⟩

end

/-- Settles O24: register by register, over the instructions. -/
theorem frameOfNonStoringInstructions : Obligations.FrameOfNonStoringInstructions :=
  fun _ _ _ hi h => ⟨fun a => congrArg (Memory.read · a) (exec_mem_of_ne_sta hi h), exec_ri h, (exec_keeps_acc · h),
    (exec_keeps_run · · h), (exec_oneByte · h)⟩

/-- Settles O25: STA is one memory write, and read-after-write says what each cell holds. -/
theorem frameOfSta : Obligations.FrameOfSta := by
  intro e a s s' h ha
  rw [effectiveAddress_eq] at ha
  subst ha
  cases (exec_sta e s).symm.trans h
  exact ⟨rfl, rfl, rfl, rfl, rfl, Memory.read_write_same s.mem e s.ac, fun b hb => Memory.read_write_other s.mem s.ac hb⟩

/-! ### Which instruction stops the machine -/

theorem opcode_instructionAt_eq_opcodeAt (s : State) : (instructionAt s).opcode = opcodeAt s := opcode_instructionAt s

/-- Settles O11: the execution phase decides, and the fetch phase leaves run Running and the opcode byte in RI. -/
theorem opcodeByteDecidesTheStop : Obligations.OpcodeByteDecidesTheStop := by
  intro s s' hr h
  have hrun : (fetchPhase s).run = .running := (readyToFetch_iff.mp hr).1
  have hx := exec_run_cases (step_ready hr ▸ h)
  rw [opcode_instructionAt_eq_opcodeAt, fetchPhase_ri, hrun] at hx
  obtain ⟨ho, hrun'⟩ | ⟨ho, hrun'⟩ | ⟨hne, ho, hrun'⟩ := hx
  · simp [ho, hrun', Opcode.isReserved]
  · have hne : opcodeAt s ≠ .hlt := by
      rintro hhlt
      rw [hhlt] at ho
      cases ho
    simp [ho, hne, hrun', opcodeByteAt, eq_comm]
  · simp [ho, hne, hrun']

/-! ### States that the machine cannot tell apart -/

/-- Settles O58: the fetch phase overwrites RI, REM and RDM, and decoding does not look at them. -/
theorem hiddenRegistersCannotBeObserved : Obligations.HiddenRegistersCannotBeObserved := by
  intro s s' hr hsame
  have hfetch : fetchPhase s = fetchPhase s' := by rw [← hsame]; rfl
  have hinstr : instructionAt s = instructionAt s' := by rw [← hsame]; rfl
  have hr' : readyToFetch s' = true := by rw [← hsame] at hr; exact hr
  rw [step_ready hr, step_ready hr', hfetch, hinstr]

end Sys2Proof.Machine
end

section
/-! ADD and its signed reading, the flags of a result (42_alu.md, 10_state.md section 4); HLT and the reserved codes
(44_nop_hlt.md, 30_encoding.md R46), whose execution phase is one time step that stops the machine. -/

namespace Sys2Proof.Machine

/-! ### The flags of a result -/

theorem flagN_iff_toInt_neg {r : Byte} : flagN r = true ↔ r.toInt < 0 := by
  rw [flagN, BitVec.msb_eq_toInt, decide_eq_true_eq]

theorem flagN_iff_le_toNat {r : Byte} : flagN r = true ↔ 128 ≤ r.toNat := by
  rw [flagN, BitVec.msb_eq_decide, decide_eq_true_eq]

theorem flagZ_iff {r : Byte} : flagZ r = true ↔ r = 0 := by
  rw [flagZ_eq, decide_eq_true_eq]

/-- Settles O31: N is the most significant bit, which is the sign. -/
theorem flagsOfAResult : Obligations.FlagsOfAResult :=
  fun r _ => ⟨flagN_eq r, flagN_iff_toInt_neg, flagN_iff_le_toNat, flagZ_iff⟩

/-! ### ADD -/

theorem exec_add {e r : Byte} {s : State} (hr : s.ac + s.mem.read e = r) : exec (.add e) s =
    .next { s with pc := s.pc + 1, ac := r, n := r.getLsbD 7, z := decide (r = 0),
                   rem := e, rdm := s.mem.read e, t := .t0 } :=
  congrArg Host.Outcome.next (loadThroughUal_eq .add hr)

/-- Settles O14: ADD is the load whose UAL operation is the sum modulo 256. -/
theorem addAddsModulo256 : Obligations.AddAddsModulo256 := by
  refine ⟨fun e s r hr => exec_add ((ual_add_eq_ofNat ..).trans hr.symm),
    fun _ => encode_eq_pair .add rfl rfl (by decide), fun s a e v r h ho ha he hv hr => ?_⟩
  subst ha he hv
  exact wholeInstruction_load h ho (by decide) rfl (fun _ _ => rfl) (fun _ _ => rfl)
    ((ual_add_eq_ofNat ..).trans hr.symm)

theorem toInt_bounds (x : Byte) : -128 ≤ x.toInt ∧ x.toInt ≤ 127 := ⟨BitVec.le_toInt x, BitVec.toInt_le⟩

/-- The carry is discarded: the signed readings add modulo 256 (D4). -/
theorem toInt_add_emod (x y : Byte) : (x + y).toInt % 256 = (x.toInt + y.toInt) % 256 := by
  rw [BitVec.toInt_add]
  exact Int.bmod_emod

section
variable (x y : Byte)

/-- The one multiple of 256 that brings the sum into -128..127 (R70). -/
theorem toInt_add_cases :
    (-128 ≤ x.toInt + y.toInt ∧ x.toInt + y.toInt ≤ 127 ∧ (x + y).toInt = x.toInt + y.toInt) ∨
    (127 < x.toInt + y.toInt ∧ (x + y).toInt = x.toInt + y.toInt - 256) ∨
    (x.toInt + y.toInt < -128 ∧ (x + y).toInt = x.toInt + y.toInt + 256) := by
  have hmod := toInt_add_emod x y
  have hx := toInt_bounds x
  have hy := toInt_bounds y
  have hr := toInt_bounds (x + y)
  omega

theorem toInt_add_of_fits (hlo : -128 ≤ x.toInt + y.toInt) (hhi : x.toInt + y.toInt ≤ 127) :
    (x + y).toInt = x.toInt + y.toInt := by
  have hcases := toInt_add_cases x y
  omega

theorem toInt_add_of_too_high (h : 127 < x.toInt + y.toInt) :
    (x + y).toInt = x.toInt + y.toInt - 256 ∧ 0 ≤ x.toInt ∧ 0 ≤ y.toInt ∧ flagN (x + y) = true := by
  have hcases := toInt_add_cases x y
  have hx := toInt_bounds x
  have hy := toInt_bounds y
  rw [flagN_iff_toInt_neg]
  omega

theorem toInt_add_of_too_low (h : x.toInt + y.toInt < -128) :
    (x + y).toInt = x.toInt + y.toInt + 256 ∧ x.toInt < 0 ∧ y.toInt < 0 ∧ flagN (x + y) = false := by
  have hcases := toInt_add_cases x y
  have hx := toInt_bounds x
  have hy := toInt_bounds y
  rw [← Bool.not_eq_true, flagN_iff_toInt_neg]
  omega

theorem toNat_add_of_le (h : x.toNat + y.toNat ≤ 255) : (x + y).toNat = x.toNat + y.toNat := by
  rw [BitVec.toNat_add]
  omega

theorem toNat_add_of_lt (h : 255 < x.toNat + y.toNat) : (x + y).toNat = x.toNat + y.toNat - 256 := by
  rw [BitVec.toNat_add]
  omega

end

theorem exec_add_ac_n {e : Byte} {s s' : State} (h : exec (.add e) s = .next s') :
    s'.ac = s.ac + s.mem.read e ∧ s'.n = flagN (s.ac + s.mem.read e) := by
  cases h
  exact ⟨rfl, rfl⟩

/-- Settles O32: AC and N after ADD are of the sum modulo 256, whose two readings the range of the exact sum decides. -/
theorem signedReadingOfAdd : Obligations.SignedReadingOfAdd := by
  intro s t e v hv h
  obtain ⟨hac, hn⟩ := exec_add_ac_n h
  rw [hac, hn, ← hv]
  exact ⟨toInt_add_of_fits s.ac v, toInt_add_of_too_high s.ac v, toInt_add_of_too_low s.ac v, toNat_add_of_le s.ac v,
    toNat_add_of_lt s.ac v⟩

/-! ### HLT -/

theorem exec_hlt (s : State) : exec .hlt s = .next { s with run := .halted } := rfl

theorem decodeOpcode_hlt_of_le {b : Byte} (hb : 0xF0 ≤ b.toNat) : decodeOpcode b = .hlt := by
  have hdiv : b.toNat / 16 = 15 := by omega
  exact decodeOpcode_eq_iff_toNat_div.mpr hdiv

theorem wholeInstruction_hlt {s : State} (h : readyToFetch s = true) (ho : opcodeAt s = .hlt) :
    step s = .next { s with pc := s.pc + 1, run := .halted, ri := opcodeByteAt s, rem := s.pc, rdm := opcodeByteAt s,
                            t := .t3 } ∧
    timeStates s = 4 ∧ accesses s = [.read s.pc (opcodeByteAt s)] :=
  wholeInstruction h (by decide) (instructionAt_of_f1 ho rfl) (exec_hlt _) (completes_hlt (inTimeState_fetchPhase h) ho)

/-- Settles O22: the execution phase sets run alone, and the sixteen bytes are those from 0xF0 on. -/
theorem hltHalts : Obligations.HltHalts := by
  refine ⟨exec_hlt, by decide, fun _ hb => decodeOpcode_hlt_of_le hb, fun s a h ho ha => ?_⟩
  subst ha
  exact wholeInstruction_hlt h ho

/-! ### The reserved codes -/

/-- The gaps in Tabela 10.1 (R46): the code 7 and the codes 11 to 14. -/
theorem isReserved_iff_code {op : Opcode} :
    op.isReserved = true ↔ op.code.toNat = 7 ∨ 11 ≤ op.code.toNat ∧ op.code.toNat ≤ 14 := by
  cases op <;> decide

theorem isReserved_decodeOpcode_iff {b : Byte} : (decodeOpcode b).isReserved = true ↔
    0x70 ≤ b.toNat ∧ b.toNat ≤ 0x7F ∨ 0xB0 ≤ b.toNat ∧ b.toNat ≤ 0xEF := by
  rw [isReserved_iff_code, ← decodeOpcode_eq_iff_toNat_div.mp rfl]
  omega

/-- The five reserved codes have one meaning (R46). -/
theorem exec_of_reserved {i : Instr} (hi : i.opcode.isReserved = true) (s : State) :
    exec i s = .next (raiseReserved s) := by
  cases i with
  | reserved0111 | reserved1011 | reserved1100 | reserved1101 | reserved1110 => rfl
  | _ => cases hi

theorem wholeInstruction_reserved {s : State} (h : readyToFetch s = true) (ho : (opcodeAt s).isReserved = true) :
    step s = .next { s with pc := s.pc + 1, run := .faulted (.reservedOpcode (opcodeByteAt s)), ri := opcodeByteAt s,
                            rem := s.pc, rdm := opcodeByteAt s, t := .t3 } ∧
    timeStates s = 4 ∧ accesses s = [.read s.pc (opcodeByteAt s)] :=
  wholeInstruction h (by decide) rfl (exec_of_reserved ((opcode_instructionAt_eq_opcodeAt s).symm ▸ ho) _)
    (completes_reserved (inTimeState_fetchPhase h) ho)

/-- Settles O23: the five codes raise the one fault, and their bytes are the gaps in the opcode table. -/
theorem reservedCodesFault : Obligations.ReservedCodesFault := by
  refine ⟨fun s => ⟨rfl, rfl, rfl, rfl, rfl⟩, fun b => isReserved_decodeOpcode_iff, fun s a b h ho ha hb => ?_⟩
  subst ha hb
  exact wholeInstruction_reserved h ho

end Sys2Proof.Machine
end

section
/-! Whole-machine rules, instruction class by instruction class: how PC advances, what the hidden registers hold, which
accesses are made (10_state.md section 3, 20_memory.md section 2, 45_datapath_microops.md section 4). -/

namespace Sys2Proof.Machine

/-! ### The classes of instructions -/

section
variable {s : State} (h : readyToFetch s = true)
include h

/-- LDA, ADD, OR and AND differ in the result `r` alone. -/
theorem wholeInstruction_anyLoad (ho : opcodeAt s ∈ [.lda, .add, .or, .and]) :
    ∃ r : Byte, step s =
        .next { s with pc := s.pc + 2, ac := r, n := r.getLsbD 7, z := decide (r = 0), ri := opcodeByteAt s,
                       rem := addressByteAt s, rdm := s.mem.read (addressByteAt s) } ∧
      timeStates s = 8 ∧
      accesses s = [.read s.pc (opcodeByteAt s), .read (s.pc + 1) (addressByteAt s),
        .read (addressByteAt s) (s.mem.read (addressByteAt s))] := by
  cases hop : opcodeAt s with
  | lda | add | or | and =>
    exact ⟨_, wholeInstruction_load h hop (by decide) rfl (fun _ _ => rfl) (fun _ _ => rfl) rfl⟩
  | _ => simp [hop] at ho

theorem wholeInstruction_anyTakenJump (hj : takesJump (opcodeAt s) s.n s.z = true) :
    step s = .next { s with pc := addressByteAt s, ri := opcodeByteAt s, rem := s.pc + 1, rdm := addressByteAt s } ∧
    timeStates s = 6 ∧ accesses s = [.read s.pc (opcodeByteAt s), .read (s.pc + 1) (addressByteAt s)] := by
  obtain ho | ⟨ho, hn⟩ | ⟨ho, hz⟩ := takesJump_iff.mp hj
  · exact wholeInstruction_takenJump h ho rfl (ho ▸ hj) (exec_jmp · _)
  · exact wholeInstruction_takenJump h ho rfl (ho ▸ hj) (exec_jn_taken · hn)
  · exact wholeInstruction_takenJump h ho rfl (ho ▸ hj) (exec_jz_taken · hz)

theorem wholeInstruction_anySkippedJump (hj : skipsJump (opcodeAt s) s.n s.z = true) :
    step s = .next { s with pc := s.pc + 2, ri := opcodeByteAt s, rem := s.pc, rdm := opcodeByteAt s } ∧
    timeStates s = 4 ∧ accesses s = [.read s.pc (opcodeByteAt s)] := by
  obtain ⟨ho, hn⟩ | ⟨ho, hz⟩ := skipsJump_iff.mp hj
  · exact wholeInstruction_skippedJump h ho rfl (ho ▸ hj) (exec_jn_skipped · hn)
  · exact wholeInstruction_skippedJump h ho rfl (ho ▸ hj) (exec_jz_skipped · hz)

theorem timing_oneStep (ho : opcodeAt s ∈ [.nop, .not, .hlt]) :
    timeStates s = 4 ∧ accesses s = [.read s.pc (opcodeByteAt s)] := by
  obtain ⟨s', hc⟩ := exists_completes_oneStep (inTimeState_fetchPhase h) ho
  have hw := completes_fetch h hc
  exact ⟨hw.timeStates_eq (by decide), hw.accesses_eq (by decide)⟩

end

/-- Settles O33: the accesses of each class of instructions; Read and Write are never active together. -/
theorem accessesOfEachInstruction : Obligations.AccessesOfEachInstruction := by
  refine ⟨fun s a e h ha he => ?_, fun s => not_read_and_write⟩
  subst ha he
  refine ⟨fun ho => (timing_oneStep h ho).2, fun ho => (wholeInstruction_sta h ho).2.2, fun ho => ?load, fun hj => ?taken,
    fun hj => ?skipped, fun ho => (wholeInstruction_reserved h ho).2.2⟩
  case load =>
    obtain ⟨r, -, -, hacc⟩ := wholeInstruction_anyLoad h ho
    exact hacc
  case taken => exact (wholeInstruction_anyTakenJump h (takesJump_iff.mpr hj)).2.2
  case skipped => exact (wholeInstruction_anySkippedJump h (skipsJump_iff.mpr hj)).2.2

/-! ### The next state of each class -/

section
variable {s s' : State} (hr : readyToFetch s = true) (h : step s = .next s')
include hr h

theorem step_ri : s'.ri = opcodeByteAt s := exec_ri (step_ready hr ▸ h)

theorem step_oneByte (ho : opcodeAt s ∈ [.nop, .not, .hlt]) :
    (s'.rem = s.pc ∧ s'.rdm = opcodeByteAt s) ∧ s'.pc = s.pc + 1 := by
  have ha : (instructionAt s).addressBytes = [] := by
    simp only [List.mem_cons, List.not_mem_nil, or_false] at ho
    obtain ho | ho | ho := ho <;> rw [instructionAt_of_f1 ho rfl] <;> rfl
  obtain ⟨hrem, hrdm, hpc⟩ := exec_oneByte ha (step_ready hr ▸ h)
  exact ⟨⟨hrem, hrdm⟩, hpc⟩

theorem step_sta (ho : opcodeAt s = .sta) : (s'.rem = addressByteAt s ∧ s'.rdm = s.ac) ∧ s'.pc = s.pc + 2 := by
  cases (wholeInstruction_sta hr ho).1.symm.trans h
  exact ⟨⟨rfl, rfl⟩, rfl⟩

theorem step_load (ho : opcodeAt s ∈ [.lda, .add, .or, .and]) :
    (s'.rem = addressByteAt s ∧ s'.rdm = s.mem.read (addressByteAt s)) ∧ s'.pc = s.pc + 2 := by
  obtain ⟨r, hstep, -⟩ := wholeInstruction_anyLoad hr ho
  cases hstep.symm.trans h
  exact ⟨⟨rfl, rfl⟩, rfl⟩

theorem step_takenJump (hj : takesJump (opcodeAt s) s.n s.z = true) :
    s'.rem = s.pc + 1 ∧ s'.rdm = addressByteAt s ∧ s'.pc = addressByteAt s := by
  cases (wholeInstruction_anyTakenJump hr hj).1.symm.trans h
  exact ⟨rfl, rfl, rfl⟩

theorem step_skippedJump (hj : skipsJump (opcodeAt s) s.n s.z = true) :
    (s'.rem = s.pc ∧ s'.rdm = opcodeByteAt s) ∧ s'.pc = s.pc + 2 := by
  cases (wholeInstruction_anySkippedJump hr hj).1.symm.trans h
  exact ⟨⟨rfl, rfl⟩, rfl⟩

theorem step_data_pc (ho : opcodeAt s ∈ [.sta, .lda, .add, .or, .and]) : s'.pc = s.pc + 2 := by
  obtain ho | ho := List.mem_cons.mp ho
  · exact (step_sta hr h ho).2
  · exact (step_load hr h ho).2

end

/-- Settles O57: REM and RDM after each class of instructions; RI is of the fetch phase. -/
theorem hiddenRegistersAfterEachInstruction : Obligations.HiddenRegistersAfterEachInstruction := by
  intro s s' a b e hr h ha hb he
  subst ha hb he
  refine ⟨step_ri hr h, fun ho => ?oneStep, fun ho => (step_sta hr h ho).1, fun ho => (step_load hr h ho).1,
    fun hj => step_takenJump hr h (takesJump_iff.mpr hj)⟩
  case oneStep =>
    obtain ho | hj := ho
    · exact (step_oneByte hr h ho).1
    · exact (step_skippedJump hr h (skipsJump_iff.mpr hj)).1

/-! ### PC -/

/-- The execution phase does not compute with PC: elsewhere, with the same operand, it does the same to AC, N, Z and MEM. -/
theorem exec_data_of_pc {i : Instr} {s s1 s2 : State} {p a : Byte} (h1 : exec i s = .next s1)
    (h2 : exec i { s with pc := p, rem := a } = .next s2) :
    s2.ac = s1.ac ∧ s2.n = s1.n ∧ s2.z = s1.z ∧ s2.mem = s1.mem := by
  cases i with
  | jn e | jz e =>
    obtain ⟨hac1, hn1, hz1⟩ := exec_keeps_acc (by simp [Instr.opcode]) h1
    obtain ⟨hac2, hn2, hz2⟩ := exec_keeps_acc (by simp [Instr.opcode]) h2
    have hmem1 := exec_mem_of_ne_sta (by simp [Instr.opcode]) h1
    have hmem2 := exec_mem_of_ne_sta (by simp [Instr.opcode]) h2
    exact ⟨hac2.trans hac1.symm, hn2.trans hn1.symm, hz2.trans hz1.symm, hmem2.trans hmem1.symm⟩
  | _ => cases h1; cases h2; exact ⟨rfl, rfl, rfl, rfl⟩

/-- Two bytes that are the same elsewhere are fetched and decoded alike. -/
theorem step_data_of_pc {s s1 s2 : State} {p : Byte} (hr : readyToFetch s = true) (hb : s.mem.read p = s.mem.read s.pc)
    (he : s.mem.read (p + 1) = s.mem.read (s.pc + 1)) (h1 : step s = .next s1) (h2 : step { s with pc := p } = .next s2) :
    s2.ac = s1.ac ∧ s2.n = s1.n ∧ s2.z = s1.z ∧ s2.mem = s1.mem := by
  have hfetch : fetchPhase { s with pc := p } = { fetchPhase s with pc := p + 1, rem := p } := by
    simp only [fetchPhase, loadRI, incrementPC, readCell, hb]
  have hinstr : instructionAt { s with pc := p } = instructionAt s := congrArg₂ decodeInstr hb he
  rw [step_ready hr] at h1
  rw [step_ready (s := { s with pc := p }) hr, hfetch, hinstr] at h2
  exact exec_data_of_pc h1 h2

/-- Settles O29: PC after each class of instructions, and the same instruction run at two places. -/
theorem howPCAdvances : Obligations.HowPCAdvances := by
  refine ⟨fun s s' hr h => ⟨fun ho => ?oneByte, fun ho => step_data_pc hr h ho, fun hj => ?taken, fun hj => ?skipped⟩,
    fun s s1 s2 p hr hb he h1 h2 => step_data_of_pc hr hb he h1 h2⟩
  case oneByte => exact (step_oneByte hr h ho).2
  case taken => exact (step_takenJump hr h (takesJump_iff.mpr hj)).2.2
  case skipped =>
    have hj := skipsJump_iff.mpr hj
    exact ⟨(step_skippedJump hr h hj).2, (wholeInstruction_anySkippedJump hr hj).2.2⟩

/-- Settles O30: the sums that say how PC advances, at 0xFF and 0xFE. -/
theorem pcWrapsAtTheTopOfMemory : Obligations.PCWrapsAtTheTopOfMemory := by
  have hwrap : (0xFF : Byte) + 1 = 0x00 := by decide
  refine ⟨fun s hpc => ?_, fun s s' hr h => ?_⟩
  · rw [addressByteAt, hpc, hwrap]
  · obtain ⟨hone, htwo, hjump, -⟩ := howPCAdvances.1 s s' hr h
    refine ⟨fun hpc ho => ?_, fun hpc ho => ?_, fun hpc ho => ?_, fun hpc ho => ?_⟩
    · rw [hone ho, hpc, hwrap]
    · rw [htwo ho, hpc]; decide
    · rw [htwo ho, hpc]; decide
    · rw [hjump (.inl ho), hpc, hwrap]

/-- Settles O4: the address byte of an untaken jump is stepped over by PC and enters nothing. -/
theorem conditionalJumpsAreTwoBytes : Obligations.ConditionalJumpsAreTwoBytes := by
  refine ⟨fun e => ⟨rfl, rfl⟩, fun s hr hj => ?_, fun e e' s => ⟨fun hn => ?_, fun hz => ?_⟩⟩
  · exact ⟨_, (wholeInstruction_anySkippedJump hr (skipsJump_iff.mpr hj)).1, rfl⟩
  · rw [exec_jn_skipped e hn, exec_jn_skipped e' hn]
  · rw [exec_jz_skipped e hz, exec_jz_skipped e' hz]

/-- Settles O35: the state after STA is about to fetch at a + 2, from a memory with the one cell written. -/
theorem storeIsSeenByTheNextFetch : Obligations.StoreIsSeenByTheNextFetch := by
  intro s a e hr ho ha he
  subst ha he
  refine ⟨_, (wholeInstruction_sta hr ho).1, hr, rfl, ?_⟩
  have hnext : s.pc + 2 + 1 = s.pc + 3 := BitVec.add_assoc s.pc 2 1
  simp only [instructionAt, Memory.read_write, hnext, eq_comm (b := addressByteAt s)]

end Sys2Proof.Machine
end

section
/-! Who writes and who reads AC and the flags (10_state.md sections 2 and 4): the result of each writing instruction, and that
an instruction that does not read a register does the same whatever it holds. -/

namespace Sys2Proof.Machine

/-! ### The equations of carga AC and carga NZ -/

theorem equation_cargaAC_iff {t : TimeState} {op : Opcode} {n z : Bool} : equation t op n z .cargaAC = true ↔
    t = .t7 ∧ (op = .lda ∨ op = .add ∨ op = .or ∨ op = .and) ∨ t = .t3 ∧ op = .not := by
  simp only [equation, loadsFromMemory, Bool.or_eq_true, Bool.and_eq_true, beq_iff_eq, or_assoc]

/-- The flags enter the equations through the two terms of a jump alone (R120 to R135). -/
theorem equation_congr_flags {t : TimeState} {op : Opcode} {n z n' z' : Bool}
    (htakes : takesJump op n z = takesJump op n' z') (hskips : skipsJump op n z = skipsJump op n' z') :
    equation t op n z = equation t op n' z' := by
  funext sig
  simp only [equation, htakes, hskips]

/-- A flag that is a factor with one decoder line makes a difference with that line alone. -/
theorem flagTerm_congr {op line : Opcode} {x x' : Bool} (h : ¬(op = line ∧ x ≠ x')) :
    (op == line && x) = (op == line && x') ∧ (op == line && !x) = (op == line && !x') := by
  by_cases ho : op = line
  · obtain rfl : x = x' := by_contra fun hx => h ⟨ho, hx⟩
    exact ⟨rfl, rfl⟩
  · rw [beq_eq_false_iff_ne.mpr ho]
    exact ⟨rfl, rfl⟩

/-- In the terms of a jump, N is a factor with JN and Z with JZ. -/
theorem equation_flags_of_ne {t : TimeState} {op : Opcode} {n z n' z' : Bool} {sig : Signal}
    (h : equation t op n z sig ≠ equation t op n' z' sig) : op = .jn ∧ n ≠ n' ∨ op = .jz ∧ z ≠ z' := by
  by_contra hsame
  obtain ⟨hn, hz⟩ := not_or.mp hsame
  obtain ⟨hjn, hjn'⟩ := flagTerm_congr hn
  obtain ⟨hjz, hjz'⟩ := flagTerm_congr hz
  have htakes : takesJump op n z = takesJump op n' z' := by rw [takesJump, hjn, hjz]; rfl
  have hskips : skipsJump op n z = skipsJump op n' z' := by rw [skipsJump, hjn', hjz']; rfl
  exact h (congrFun (equation_congr_flags htakes hskips) sig)

/-! ### Written by -/

section
variable {s s' : State} (hr : readyToFetch s = true) (h : step s = .next s')
include hr h

theorem step_keeps_acc (ho : opcodeAt s ∉ [.lda, .add, .or, .and, .not]) : s'.ac = s.ac ∧ s'.n = s.n ∧ s'.z = s.z := by
  rw [step_ready hr] at h
  rw [← opcode_instructionAt_eq_opcodeAt] at ho
  exact exec_keeps_acc (s := fetchPhase s) ho h

/-- The result of LDA, ADD, OR and AND is that of their UAL operation. -/
theorem step_ac_of_load (u : UalOp) {op : Opcode} {mk : Byte → Instr} (ho : opcodeAt s = op) (hf : op.format = .f2 mk)
    (hx : ∀ e s, exec (mk e) s = .next (endInstruction (loadACThroughUal u (fetchDirect e s)))) :
    s'.ac = ual u s.ac (s.mem.read (addressByteAt s)) := by
  rw [step_ready hr, instructionAt_of_f2 ho hf, hx] at h
  cases h
  rfl

theorem step_ac_of_not (ho : opcodeAt s = .not) : s'.ac = ~~~s.ac := by
  cases (wholeInstruction_not hr ho).1.symm.trans h
  rfl

end

/-! ### Read by -/

/-- A change that a taken and a skipped jump carry along, a conditional jump does, when the condition is as before. -/
theorem conditionalJump_carries {f : State → State} {c : Bool} {e : Byte} {s s' : State}
    (htaken : endInstruction (jumpTo e (f s)) = f (endInstruction (jumpTo e s)))
    (hskipped : endInstruction (stepOver (f s)) = f (endInstruction (stepOver s)))
    (h : (.next (endInstruction (if c then jumpTo e s else stepOver s)) : Result) = .next s') :
    (.next (endInstruction (if c then jumpTo e (f s) else stepOver (f s))) : Result) = .next (f s') := by
  cases h
  cases c with
  | true => exact congrArg _ htaken
  | false => exact congrArg _ hskipped

section
variable {i : Instr} {s s' : State} (h : exec i s = .next s')
include h

theorem exec_carries_ac (x : Byte) (hi : i.opcode ∉ [.sta, .lda, .add, .or, .and, .not]) :
    exec i { s with ac := x } = .next { s' with ac := x } := by
  cases i with
  | sta e | lda e | add e | or e | and e | not => simp [Instr.opcode] at hi
  | jn e | jz e => exact conditionalJump_carries (f := fun s => { s with ac := x }) rfl rfl h
  | _ => cases h; rfl

/-- Where N is not tested, it is replaced by the flag of a result or carried along. -/
theorem exec_carries_n (x : Bool) (hi : i.opcode ≠ .jn) :
    ∃ y, exec i { s with n := x } = .next { s' with n := y } := by
  cases i with
  | jn e => exact absurd rfl hi
  | jz e => exact ⟨x, conditionalJump_carries (f := fun s => { s with n := x }) rfl rfl h⟩
  | _ => cases h; exact ⟨_, rfl⟩

theorem exec_carries_z (x : Bool) (hi : i.opcode ≠ .jz) :
    ∃ y, exec i { s with z := x } = .next { s' with z := y } := by
  cases i with
  | jz e => exact absurd rfl hi
  | jn e => exact ⟨x, conditionalJump_carries (f := fun s => { s with z := x }) rfl rfl h⟩
  | _ => cases h; exact ⟨_, rfl⟩

end

section
variable {s s' : State} (hr : readyToFetch s = true) (h : step s = .next s')
include hr h

/-- LDA overwrites AC without reading it. -/
theorem step_lda_ignores_ac (x : Byte) (ho : opcodeAt s = .lda) : step { s with ac := x } = .next s' := by
  rw [step_ready hr, instructionAt_of_f2 ho rfl] at h
  rw [step_ready (s := { s with ac := x }) hr, instructionAt_of_f2 (s := { s with ac := x }) ho rfl]
  exact h

theorem step_carries_ac (x : Byte) (ho : opcodeAt s ∉ [.sta, .lda, .add, .or, .and, .not]) :
    step { s with ac := x } = .next { s' with ac := x } := by
  rw [step_ready hr] at h
  rw [← opcode_instructionAt_eq_opcodeAt] at ho
  exact (step_ready (s := { s with ac := x }) hr).trans (exec_carries_ac h x ho)

theorem step_carries_n (x : Bool) (ho : opcodeAt s ≠ .jn) : ∃ y, step { s with n := x } = .next { s' with n := y } := by
  rw [step_ready hr] at h
  rw [← opcode_instructionAt_eq_opcodeAt] at ho
  rw [step_ready (s := { s with n := x }) hr]
  exact exec_carries_n h x ho

theorem step_carries_z (x : Bool) (ho : opcodeAt s ≠ .jz) : ∃ y, step { s with z := x } = .next { s' with z := y } := by
  rw [step_ready hr] at h
  rw [← opcode_instructionAt_eq_opcodeAt] at ho
  rw [step_ready (s := { s with z := x }) hr]
  exact exec_carries_z h x ho

end

/-- Settles O27: each writer loads its own result, the others keep AC, and those that do not read it carry any value along. -/
theorem accessToACByInstruction : Obligations.AccessToACByInstruction := by
  refine ⟨fun s s' v hr h hv => ?written, fun s s' x hr h ho => ⟨step_lda_ignores_ac hr h x, fun hlda => ?carried⟩,
    fun t op n z => equation_cargaAC_iff⟩
  case written =>
    subst hv
    exact ⟨fun ho => step_ac_of_load hr h .y ho rfl (fun _ _ => rfl),
      fun ho => step_ac_of_load hr h .add ho rfl (fun _ _ => rfl),
      fun ho => step_ac_of_load hr h .or ho rfl (fun _ _ => rfl),
      fun ho => step_ac_of_load hr h .and ho rfl (fun _ _ => rfl), step_ac_of_not hr h, step_sta_stores_ac hr h,
      fun ho => (step_keeps_acc hr h ho).1⟩
  case carried =>
    refine step_carries_ac hr h x ?_
    simp only [List.mem_cons, not_or] at ho ⊢
    exact ⟨ho.1, hlda, ho.2⟩

/-- Settles O28: the flags are of the result where AC is loaded and kept elsewhere; only a jump tests one, and only its own. -/
theorem whoWritesAndReadsTheFlags : Obligations.WhoWritesAndReadsTheFlags := by
  refine ⟨fun s s' hr h => ⟨fun ho => step_flagsAgree hr ho h, fun ho => (step_keeps_acc hr h ho).2⟩,
    fun s s' x hr h => step_carries_n hr h x, fun s s' x hr h => step_carries_z hr h x,
    fun t op n z => ⟨rfl, equation_cargaAC_iff (n := n) (z := z), fun n' z' sig => equation_flags_of_ne⟩⟩

end Sys2Proof.Machine
end

section
/-! Single time steps (46_control_unit.md): the transfer of each row of Tabela 10.2, signals that do not interfere, and the
executions of one time step; then the rest of an instruction from any time state after the fetch phase (log 9, log 10). -/

namespace Sys2Proof.Machine

/-! ### The rows of Tabela 10.2 -/

/-- `UAL(op), carga AC, carga NZ` without goto t0: a row of Tabela 10.2, where the cells of Tabela 10.3 end the instruction. -/
theorem transfer_ualRow (u : UalOp) (s : State) {t : TimeState} (h : s.t.succ = some t) :
    transfer (fun x => decide (x ∈ [Signal.ual u, .cargaAC, .cargaNZ])) s =
      .next { s with ac := ual u s.ac s.rdm, n := (ual u s.ac s.rdm).getLsbD 7, z := decide (ual u s.ac s.rdm = 0),
                     t := t } := by
  rw [← flagN_eq, ← flagZ_eq]
  cases u <;> exact transfer_eq rfl rfl rfl rfl h

/-- Settles O47: under the signals of a row, each destination takes what the row says, and the time state advances. -/
theorem whatEachControlSignalDoes : Obligations.WhatEachControlSignalDoes := by
  intro s t' h
  refine ⟨?_, ?_, ?_, ?_, ?_, transfer_ualRow .y s h, transfer_ualRow .add s h, transfer_ualRow .or s h,
    transfer_ualRow .and s h, transfer_ualRow .not s h, ?_, ?_, ?_⟩
  all_goals exact transfer_eq rfl rfl rfl rfl h

/-! ### Signals that do not interfere -/

/-- A data instruction is no jump. -/
theorem not_hasDataOperand_of_takesJump {op : Opcode} {n z : Bool} (h : takesJump op n z = true) :
    hasDataOperand op = false := by
  obtain rfl | ⟨rfl, -⟩ | ⟨rfl, -⟩ := takesJump_iff.mp h <;> rfl

theorem not_hasDataOperand_of_skipsJump {op : Opcode} {n z : Bool} (h : skipsJump op n z = true) :
    hasDataOperand op = false := by
  obtain ⟨rfl, -⟩ | ⟨rfl, -⟩ := skipsJump_iff.mp h <;> rfl

theorem not_takesJump_of_skipsJump {op : Opcode} {n z : Bool} (h : skipsJump op n z = true) :
    takesJump op n z = false := by
  obtain ⟨rfl, rfl⟩ | ⟨rfl, rfl⟩ := skipsJump_iff.mp h <;> rfl

theorem ne_sta_of_loadsFromMemory {op : Opcode} (h : loadsFromMemory op = true) : op ≠ .sta := by
  rintro rfl
  cases h

/-- Settles O49: the time state tells opposed signals apart but at t3, t5 and t6, where the decoder lines do. -/
theorem signalsOfATimeStepDoNotInterfere : Obligations.SignalsOfATimeStepDoNotInterfere := by
  rintro t op n z _ rfl
  cases t with
  | t3 => simpa [equation] using fun h => ⟨not_hasDataOperand_of_skipsJump h, not_takesJump_of_skipsJump h⟩
  | t5 => simpa [equation] using not_hasDataOperand_of_takesJump
  | t6 => simpa [equation] using ne_sta_of_loadsFromMemory
  | _ => simp [equation]

/-! ### Executions of one time step -/

theorem microStep_skippedJump {s : State} {op : Opcode} (hs : InTimeState s .t3 op) (hj : skipsJump op s.n s.z = true) :
    microStep s = .next { s with pc := s.pc + 1, t := .t0 } :=
  (microStep_of_signals hs (activeSignals_skippedJump hj)).trans (transfer_incrementaPC_gotoT0 s)

theorem microStep_not {s : State} (hs : InTimeState s .t3 .not) : microStep s =
    .next { s with ac := ~~~s.ac, n := (~~~s.ac).getLsbD 7, z := decide (~~~s.ac = 0), t := .t0 } := by
  rw [← complementThroughUal_eq]
  exact (microStep_of_signals hs rfl).trans (transfer_ual_gotoT0 s .not)

/-- Settles O53: the one cell of each column after the fetch phase, and its transfer. -/
theorem oneStepExecutions : Obligations.OneStepExecutions := by
  refine ⟨fun n z => ⟨rfl, rfl, fun hn => ?_, fun hz => ?_, rfl⟩,
    fun s => ⟨fun hs => (microStep_of_signals hs rfl).trans (transfer_gotoT0 s), microStep_not,
      fun hs hn => microStep_skippedJump hs (skipsJump_iff.mpr (.inl ⟨rfl, hn⟩)),
      fun hs hz => microStep_skippedJump hs (skipsJump_iff.mpr (.inr ⟨rfl, hz⟩)),
      fun hs => (microStep_of_signals hs rfl).trans (transfer_halt s)⟩,
    fun s h ho => ?_⟩
  · exact activeSignals_skippedJump (skipsJump_iff.mpr (.inl ⟨rfl, hn⟩))
  · exact activeSignals_skippedJump (skipsJump_iff.mpr (.inr ⟨rfl, hz⟩))
  · obtain ho | hj := ho
    · exact timing_oneStep h ho
    · exact (wholeInstruction_anySkippedJump h (skipsJump_iff.mpr hj)).2

/-- Settles O54: every term of an equation after t2 has a decoder line as a factor. -/
theorem reservedCodeUnderTheEquations : Obligations.ReservedCodeUnderTheEquations :=
  ⟨fun _ _ n z sig ho ht => equation_reserved n z sig ho ht, fun _ _ ho hs => microStep_reserved hs ho rfl⟩

/-! ### The rest of an instruction -/

/-- What the rest of the instruction in RI may leave: RI is kept, and only HLT halts and only a reserved code faults. -/
structure EndsAs (s s' : State) : Prop where
  ri : s'.ri = s.ri
  halted : s'.run = .halted → decodeOpcode s.ri = .hlt
  faulted : ∀ b, s'.run = .faulted (.reservedOpcode b) ↔ (decodeOpcode s.ri).isReserved = true ∧ b = s.ri

theorem transfer_total (sig : Signal → Bool) (s : State) :
    transfer sig s = .fault (.unstatedTimeStep s.t) ∨ ∃ s', transfer sig s = .next s' := by
  unfold transfer
  split
  · exact .inr ⟨_, rfl⟩
  · exact .inl rfl

theorem TimeState.isFetch_of_succ {t t' : TimeState} (ht : t.isFetch = false) (h : t.succ = some t') :
    t'.isFetch = false := by
  cases t with
  | t0 | t1 | t2 => cases ht
  | t3 | t4 | t5 | t6 => cases h; rfl
  | t7 => cases h

/-- Neither goto t0, Halt nor the advance of t leads back into the fetch phase past t0 (R115, R116). -/
theorem nextTime_of_execution {sig : Signal → Bool} {s : State} {t : TimeState} (ht : s.t.isFetch = false)
    (h : nextTime sig s = some t) : t = .t0 ∨ t.isFetch = false := by
  unfold nextTime at h
  split at h
  · cases h
  · cases h; exact .inl rfl
  · cases h; exact .inr ht
  · exact .inr (TimeState.isFetch_of_succ ht h)

theorem running_and_not_t0_of_not_ended {s : State} (h : instructionEnded s = false) : s.run = .running ∧ s.t ≠ .t0 := by
  simpa [instructionEnded] using h

/-- What every time step after the fetch phase leaves, be it the last one or not. -/
def GoesOnAs (s s' : State) : Prop :=
  EndsAs s s' ∧ (instructionEnded s' = false → s'.run = .running ∧ s'.t.isFetch = false)

theorem raiseReserved_goesOnAs {s : State} (ho : (decodeOpcode s.ri).isReserved = true) : GoesOnAs s (raiseReserved s) :=
  ⟨⟨rfl, nofun, fun b => by simp [ho, eq_comm]⟩, nofun⟩

section
variable {s s' : State} (hr : s.run = .running)
include hr

theorem transfer_goesOnAs (ht : s.t.isFetch = false) (ho : (decodeOpcode s.ri).isReserved = false)
    (h : transfer (controlSignals s) s = .next s') : GoesOnAs s s' := by
  obtain ⟨-, -, -, -, htime, hrun, hri, -⟩ := transfer_next h
  have hcargaRI : controlSignals s .cargaRI = false := by
    refine beq_eq_false_iff_ne.mpr fun h2 => ?_
    rw [h2] at ht
    cases ht
  refine ⟨⟨?ri, ?halted, ?faulted⟩, fun he => ?goesOn⟩
  case ri => rw [hri, nextRI, hcargaRI]; rfl
  case halted =>
    intro hhalted
    rw [hrun, hr, ite_eq_left_iff] at hhalted
    have hhalt : controlSignals s .halt = true := by simpa using hhalted
    exact eq_of_beq (Bool.and_eq_true_iff.mp hhalt).2
  case faulted =>
    intro b
    rw [hrun, hr, ho]
    split <;> simp
  case goesOn =>
    obtain ⟨hr', ht0⟩ := running_and_not_t0_of_not_ended he
    exact ⟨hr', (nextTime_of_execution ht htime).resolve_left ht0⟩

/-- A time step after the fetch phase is unstated, or goes on as the instruction in RI. -/
theorem microStep_execution_cases (ht : s.t.isFetch = false) :
    (∃ t, microStep s = .fault (.unstatedTimeStep t)) ∨ ∃ s', microStep s = .next s' ∧ GoesOnAs s s' := by
  cases ho : (decodeOpcode s.ri).isReserved with
  | true => exact .inr ⟨_, microStep_reserved ⟨hr, rfl, rfl⟩ ho ht, raiseReserved_goesOnAs ho⟩
  | false =>
    have hstep : microStep s = transfer (controlSignals s) s := microStep_transfer hr rfl ho
    rw [hstep]
    obtain hfault | ⟨s', h⟩ := transfer_total (controlSignals s) s
    · exact .inl ⟨_, hfault⟩
    · exact .inr ⟨s', h, transfer_goesOnAs hr ht ho h⟩

end

theorem EndsAs.of_same_ri {s s1 s' : State} (hri : s1.ri = s.ri) (h : EndsAs s1 s') : EndsAs s s' := by
  obtain ⟨hri', hhalted, hfaulted⟩ := h
  rw [hri] at hri' hhalted hfaulted
  exact ⟨hri', hhalted, hfaulted⟩

/-- The time steps after the fetch phase, by induction on how many are allowed. -/
theorem microRun_execution_cases : ∀ (k : Nat) (s : State), s.run = .running → s.t.isFetch = false →
    (∃ t, microRun k s = .fault (.unstatedTimeStep t)) ∨ ∃ s', microRun k s = .next s' ∧ EndsAs s s'
  | 0, s, _, _ => .inl ⟨s.t, rfl⟩
  | k + 1, s, hr, ht => by
    obtain ⟨t, hfault⟩ | ⟨s1, hstep, hends, hgo⟩ := microStep_execution_cases hr ht
    · exact .inl ⟨t, by simp only [microRun, hfault]⟩
    · cases he : instructionEnded s1 with
      | true => exact .inr ⟨s1, microRun_end hstep he, hends⟩
      | false =>
        obtain ⟨hr1, ht1⟩ := hgo he
        rw [microRun_go hstep he]
        obtain hfault | ⟨s', hrun, hends'⟩ := microRun_execution_cases k s1 hr1 ht1
        · exact .inl hfault
        · exact .inr ⟨s', hrun, hends'.of_same_ri hends.ri⟩

theorem step_of_not_isFetch {s : State} (hr : s.run = .running) (ht : s.t.isFetch = false) :
    step s = runInstruction s := by
  have ht0 : s.t ≠ .t0 := by
    intro h
    rw [h] at ht
    cases ht
  simp [step, hr, ht0]

/-- Settles O41: a step from the middle of an instruction is its remaining time steps. -/
theorem restOfAnInstruction : Obligations.RestOfAnInstruction := by
  intro s hr ht
  have hstep := step_of_not_isFetch hr ht
  obtain ⟨t, hfault⟩ | ⟨s', hrun, hri, hhalted, hfaulted⟩ := microRun_execution_cases timeStateCount s hr ht
  · exact .inl ⟨t, hstep.trans hfault⟩
  · have hnext := hstep.trans hrun
    exact .inr ⟨s', hnext, stepEndsBetweenInstructions s s' hnext, hri, hhalted, hfaulted⟩

end Sys2Proof.Machine
end

section
/-! How a run begins, goes on and ends (40_instruction_cycle.md section 3, 10_state.md section 7, 70_reset_and_hazards.md):
the next instruction, placed or found at PC; the length of a run; the launch; what the host reads. -/

namespace Sys2Proof.Machine

/-! ### The instruction at PC -/

theorem decodeInstr_of_decode_pair {b e : Byte} {i : Instr} {rest : List Byte} (h : decode [b, e] = .instr i rest) :
    decodeInstr b e = i := by
  obtain ⟨rest', hpair⟩ := decode_pair b e
  cases hpair.symm.trans h
  rfl

/-- Settles O5: the two bytes decode to the instruction at PC. -/
theorem stepRunsTheDecodedInstruction : Obligations.StepRunsTheDecodedInstruction := by
  intro s i rest hr h
  have hi : instructionAt s = i := decodeInstr_of_decode_pair h
  rw [step_ready hr, hi]
  rfl

theorem decode_tableWordBytes {nbits w : Nat} {i : Instr} (h : decodeTableWord nbits w = some i) :
    ∃ rest, decode (tableWordBytes nbits w) = .instr i rest := by
  unfold decodeTableWord at h
  split at h
  · next i' rest hdecode => cases h; exact ⟨rest, hdecode⟩
  · cases h

/-- PC + 1 is another cell than PC, so that placing the second byte leaves the first in place. -/
theorem instructionAt_placeAtPC (b e : Byte) (s : State) : instructionAt (placeAtPC [b, e] s) = decodeInstr b e := by
  simp [instructionAt, placeAtPC, Memory.place, Memory.read_write]

/-- Settles O6: the placed bytes are the ones at PC and PC + 1, and the placed state is about to fetch. -/
theorem withFetchWordIsRunNext : Obligations.WithFetchWordIsRunNext := by
  intro s nbits w i h
  obtain ⟨rest, hdecode⟩ := decode_tableWordBytes h
  have hi : instructionAt (s.withFetchWord nbits w) = i :=
    (instructionAt_placeAtPC _ _ s).trans (decodeInstr_of_decode_pair hdecode)
  rw [step_ready rfl, hi]

/-! ### Runs -/

theorem no_step_of_stopped {s s' : State} (hs : Stopped s) : step s ≠ .next s' := fun h => hs (running_of_step h)

/-- A run from between two instructions takes `k` steps or ends before (R56). -/
theorem run_goes_on : ∀ (k : Nat) (s : State), AtBoundary s →
    (∃ s', Reaches k s s') ∨ ∃ j < k, ∃ s', Reaches j s s' ∧ Stopped s'
  | 0, s, _ => .inl ⟨s, reaches_zero.mpr rfl⟩
  | k + 1, s, hs => by
    obtain hr | hstop := hs.ready_or_stopped
    · obtain ⟨s1, hstep, -⟩ := readyMachineAlwaysSteps s hr
      obtain ⟨s', h⟩ | ⟨j, hj, s', h, hstop⟩ := run_goes_on k s1 (stepEndsBetweenInstructions s s1 hstep)
      · exact .inl ⟨s', reaches_succ.mpr ⟨s1, hstep, h⟩⟩
      · exact .inr ⟨j + 1, Nat.succ_lt_succ hj, s', reaches_succ.mpr ⟨s1, hstep, h⟩, hstop⟩
    · exact .inr ⟨0, k.succ_pos, s, reaches_zero.mpr rfl, hstop⟩

/-- Settles O44: between instructions a machine steps or has stopped. -/
theorem runGoesOnUntilItStops : Obligations.RunGoesOnUntilItStops :=
  fun k s hr => run_goes_on k s (atBoundary_of_readyToFetch hr)

/-- Settles O45: by induction on the run that ends; the other run takes the same steps, and none from its end. -/
theorem runHasAtMostOneEnd : Obligations.RunHasAtMostOneEnd := by
  intro j
  induction j with
  | zero =>
    intro k s s1 s2 h1 hs1 h2
    obtain rfl := reaches_zero.mp h1
    cases k with
    | zero => exact ⟨le_rfl, fun _ => ⟨rfl, (reaches_zero.mp h2).symm⟩⟩
    | succ k =>
      obtain ⟨s3, hstep, -⟩ := reaches_succ.mp h2
      exact absurd hstep (no_step_of_stopped hs1)
  | succ j ih =>
    intro k s s1 s2 h1 hs1 h2
    obtain ⟨s3, hstep, h1⟩ := reaches_succ.mp h1
    cases k with
    | zero =>
      obtain rfl := reaches_zero.mp h2
      exact ⟨Nat.zero_le _, fun hs2 => absurd hstep (no_step_of_stopped hs2)⟩
    | succ k =>
      obtain ⟨s4, hstep', h2⟩ := reaches_succ.mp h2
      cases hstep.symm.trans hstep'
      obtain ⟨hle, hend⟩ := ih k s3 s1 s2 h1 hs1 h2
      exact ⟨Nat.succ_le_succ hle, fun hs2 => ⟨congrArg Nat.succ (hend hs2).1, (hend hs2).2⟩⟩

/-! ### Launch and host -/

/-- Settles O42: the fields of the launched state. -/
theorem launchState : Obligations.LaunchState := fun _ => ⟨rfl, rfl, rfl, rfl, rfl, rfl, rfl, rfl, rfl, rfl⟩

/-- Settles O43: State.reset is the launch of Launch.default, whose memory lists nothing. -/
theorem resetIsALaunch : Obligations.ResetIsALaunch :=
  ⟨⟨Launch.default, rfl, rfl⟩, rfl, Memory.wf_nil, atBoundary_of_readyToFetch rfl, Memory.read_nil,
    rfl, rfl, rfl, rfl, rfl, rfl⟩

/-- Settles O46: the host reads by the value of run. -/
theorem hostReadsAfterTheEnd : Obligations.HostReadsAfterTheEnd := by
  intro s
  refine ⟨fun h => ?_, fun h => ?_, fun c h => ?_⟩
  · simp only [State.hostReads, h]
  · simp only [State.hostReads, h]
  · simp only [State.hostReads, h]

end Sys2Proof.Machine
end
